-- ==== Sys2Proof/Word.lean ====
section
/-! DEFINITION. The two widths the core moves: a 32-bit register word and an 8-bit buffer byte
(20_memory R41, 45_common_semantics R160). Every value is unsigned (R160). -/

namespace Sys2Proof

/-- A 32-bit register value, a command word, or a word of SHA-1. -/
abbrev Word := BitVec 32

/-- A byte of a buffer, a character of a text (00_scope section 5), or a byte of a digest. -/
abbrev Byte := BitVec 8

end Sys2Proof
end

