-- ==== Sys2Proof/Syntax.lean ====
section
/-! DEFINITION. The commands of the core: one constructor for each row of spec/opcode_table.json, the
six commands of 30_encoding R62. No command carries an operand (30_encoding R61). -/

namespace Sys2Proof

/-- The six commands, in the order of their opcodes (30_encoding R62). -/
inductive Instr where
  /-- serialize the counter into MSGMEM (41_counter R100) -/
  | ctrser
  /-- HMAC-SHA1 of the message under the key (42_hmac_sha1 R118) -/
  | hmac
  /-- the offset from the digest's last byte (43_truncation R140) -/
  | doff
  /-- the 31-bit window of the digest (43_truncation R141) -/
  | trunc
  /-- decode the Base32 text into the key (40_base32 R82) -/
  | b32dec
  /-- encode the key as Base32 text (40_base32 R86) -/
  | b32enc
  deriving DecidableEq, Repr

end Sys2Proof
end

