-- ==== Sys2Proof/WellFormed.lean ====
section
/-! DEFINITION. When a command word is well formed (30_encoding R60, R65), and when an instruction is.
The checks on host actions stand beside the port's map in Sys2Proof/Machine/Port.lean, those on the
parameters in Sys2Proof/Config.lean. -/

namespace Sys2Proof

/-- 30_encoding R61: 'No command carries an operand or an immediate in its word', so there is nothing in
an instruction that could be out of range. -/
def Instr.wellFormed : Instr → Bool
  | .ctrser => true
  | .hmac => true
  | .doff => true
  | .trunc => true
  | .b32dec => true
  | .b32enc => true

/-- Check 1 on a command word: RSV, bits 31:8, is zero (30_encoding R60). -/
def reservedZero (w : Word) : Bool := w.extractLsb' 8 24 == 0

/-- Check 2 on a command word: OPC, bits 7:0, is one of 0x01 to 0x06 (30_encoding R62). -/
def opcodeAssigned (w : Word) : Bool :=
  0x01#8 ≤ w.extractLsb' 0 8 && w.extractLsb' 0 8 ≤ 0x06#8

/-- A word is one of the six of 30_encoding R62 exactly when it passes both checks. -/
def wordWellFormed (w : Word) : Bool := reservedZero w && opcodeAssigned w

end Sys2Proof
end

