-- ==== Sys2Proof/Decode.lean ====
section
/-! DEFINITION. From a command word to a command (30_encoding R60 to R65), total on every word and
rejecting by name, and the encoder. -/

namespace Sys2Proof

/-- Why a word is no command (30_encoding R65). Both kinds complete with IllegalCommand (60_exceptions
R182), so the machine does not tell them apart. -/
inductive Reject where
  /-- a bit of RSV, 31:8, is not zero, 'whatever its OPC' -/
  | reservedBits
  /-- RSV is zero and OPC is 0x00 or one of 0x07 to 0xFF -/
  | unassignedOpcode
  deriving DecidableEq, Repr

/-- A row of the opcode map: a word selects `instr` when `word & mask = pattern`. -/
structure OpcodeRow where
  mnemonic : String
  pattern : Word
  mask : Word
  instr : Instr
  deriving DecidableEq, Repr

/-- The opcode map of 30_encoding R62. 'a word selects a command only when all 32 bits are equal to
match': every mask is all ones. -/
def opcodeMap : List OpcodeRow :=
  [ ⟨"CTRSER", 0x00000001, 0xFFFFFFFF, .ctrser⟩,
    ⟨"HMAC",   0x00000002, 0xFFFFFFFF, .hmac⟩,
    ⟨"DOFF",   0x00000003, 0xFFFFFFFF, .doff⟩,
    ⟨"TRUNC",  0x00000004, 0xFFFFFFFF, .trunc⟩,
    ⟨"B32DEC", 0x00000005, 0xFFFFFFFF, .b32dec⟩,
    ⟨"B32ENC", 0x00000006, 0xFFFFFFFF, .b32enc⟩ ]

/-- A word selects a row of the map. -/
def OpcodeRow.selects (r : OpcodeRow) (w : Word) : Bool := w &&& r.mask == r.pattern

/-- The command a word stands for, or why it stands for none (30_encoding R62, R65). -/
def decode (w : Word) : Except Reject Instr :=
  match opcodeMap.find? (·.selects w) with
  | some r => .ok r.instr
  | none => .error (if reservedZero w then .unassignedOpcode else .reservedBits)

/-- `OPC` of a command (30_encoding R62). -/
def opcode : Instr → BitVec 8
  | .ctrser => 0x01
  | .hmac => 0x02
  | .doff => 0x03
  | .trunc => 0x04
  | .b32dec => 0x05
  | .b32enc => 0x06

/-- The word of a command: format C, RSV zero above OPC (30_encoding R60). -/
def encode (i : Instr) : Word := (0 : BitVec 24) ++ opcode i

/-- The host's entry to the decoder: a command is one 32-bit word and the port moves it as one value, with
no byte order (20_memory R48), so the table's bit k is the word's bit k. -/
def decodeTableWord (nbits w : Nat) : Option Instr :=
  if nbits ≤ 32 ∧ w < 2 ^ 32 then (decode (BitVec.ofNat 32 w)).toOption else none

end Sys2Proof
end

