-- ==== Sys2Proof/Machine/Bytes.lean ====
section
/-! DEFINITION. Byte sequences that stand for numbers (00_scope section 5): `be` and `to_be`, most
significant byte first (20_memory R48). -/

namespace Sys2Proof.Machine

/-- `be(s) = sum over i of s[i] * 256^(len(s)-1-i)` (00_scope section 5). -/
def be : List Byte → Nat
  | [] => 0
  | b :: bs => b.toNat * 256 ^ bs.length + be bs

/-- `to_be(v,n)[i] = (v >> (8*(n-1-i))) & 0xFF` for i = 0 .. n-1 (00_scope section 5). -/
def toBe (v n : Nat) : List Byte :=
  (List.range n).map fun i => BitVec.ofNat 8 (v >>> (8 * (n - 1 - i)))

/-- `zeros(n)`: n bytes of value 0 (00_scope section 5). -/
def zeros (n : Nat) : List Byte := List.replicate n 0

end Sys2Proof.Machine
end

