-- ==== Sys2Proof/Config.lean ====
section
/-! DEFINITION. What an implementation of the core fixes (00_scope R3, 20_memory R47) and the one value
the spec leaves free (30_encoding R64). -/

namespace Sys2Proof

/-- The parameters of the core, 00_scope R3: the capacities of KEYMEM and MSGMEM in bytes, and the port
offsets at which the three large buffers start, which for other than the default capacities are a
platform parameter (20_memory R47). State carries one value of this type and no step changes it
(DESIGN CHOICE, assumption 1; safe). -/
structure Config where
  /-- `KEY_CAP` -/
  keyCap : Nat
  /-- `MSG_CAP` -/
  msgCap : Nat
  keyBase : Nat
  msgBase : Nat
  txtBase : Nat
  deriving DecidableEq, Repr

namespace Config

/-- `TXT_CAP = 8 * KEY_CAP / 5` (00_scope R3). -/
def txtCap (c : Config) : Nat := 8 * c.keyCap / 5

/-- The default parameters (00_scope R3) and the start offsets of the default map (20_memory R47). -/
def default : Config :=
  { keyCap := 160, msgCap := 256, keyBase := 0x100, msgBase := 0x200, txtBase := 0x300 }

/-- The constraints of 00_scope R3 on the capacities. -/
def sizesLegal (c : Config) : Bool :=
  c.keyCap % 5 == 0 && 80 ≤ c.keyCap && 73 ≤ c.msgCap &&
    c.keyCap < 2 ^ 32 && c.msgCap < 2 ^ 32 && c.txtCap < 2 ^ 32

/-- Two ranges of offsets, each a start and a length, share no offset. -/
def apart (b₁ n₁ b₂ n₂ : Nat) : Bool := b₁ + n₁ ≤ b₂ || b₂ + n₂ ≤ b₁

/-- The three large buffers lie above DIGEST and share no offset, and each keeps the start offset of the
default map when it fits there (20_memory R47; DESIGN CHOICE for what does not fit, assumption 8; safe). -/
def mapLegal (c : Config) : Bool :=
  0x54 ≤ c.keyBase && 0x54 ≤ c.msgBase && 0x54 ≤ c.txtBase &&
    apart c.keyBase c.keyCap c.msgBase c.msgCap &&
    apart c.keyBase c.keyCap c.txtBase c.txtCap &&
    apart c.msgBase c.msgCap c.txtBase c.txtCap &&
    (0x100 < c.keyCap || c.keyBase == 0x100) &&
    (0x100 < c.msgCap || c.msgBase == 0x200) &&
    (0x100 < c.txtCap || c.txtBase == 0x300)

/-- A machine of the spec has parameters that meet both. -/
def legal (c : Config) : Bool := c.sizesLegal && c.mapLegal

/-- FREE VALUE (30_encoding R64; assumption 3). How many host moves pass between the n-th issue of a command
and its completion: 'a finite time that the spec does not bound'. Nothing says which number it is, so what
is proved of one run holds 'for every number of host STATUS reads, zero included' (safe).

DESIGN CHOICE (assumption 3): it is drawn from the count of issues alone, so two runs with the same count
draw the same number whatever their commands, lengths and data, although the time 'may depend on the
lengths' and whether it depends on the data 'is not specified' (70_reset_and_hazards R208). Unsafe for a claim
that compares the delays of two runs; 93_implementation_defined U14 lets no claim rest on them. -/
opaque completionDelay : Nat → Nat

end Config

end Sys2Proof
end

