-- ==== Sys2Proof/Machine/State.lean ====
section
/-! DEFINITION. The state of the core as plain data (10_state), the reasons a step can stop, and the state
after reset (10_state R26). The fields of the host and the parameters are the MODEL's own (assumptions 1
to 3 and 6): exec and step have no other place to take them from. -/

namespace Sys2Proof.Machine

/-- A buffer: pairs of an index and a byte, indexes strictly rising, no byte zero. An index that is not
listed reads as 0x00, the reset content (10_state R26). -/
abbrev Memory := List Host.Cell

/-- The error field `STATUS.ERR` by the names of 60_exceptions R180. The codes 5, 6 and 7 are 'never
written by the core', so they have no name here (93_implementation_defined U12; assumption 9; safe). -/
inductive ErrCode where
  /-- code 0: success, or no command has completed since the last issue or reset -/
  | none
  /-- code 1: TXTLEN is not a multiple of 8 (60_exceptions R184) -/
  | invalidEncoding
  /-- code 2: a character outside the Base32 alphabet (60_exceptions R185) -/
  | invalidCharacter
  /-- code 3: a length the block cannot take (60_exceptions R181) -/
  | badOperand
  /-- code 4: the word is no command (60_exceptions R182) -/
  | illegalCommand
  deriving DecidableEq, Repr

/-- The nine registers (10_state R10). -/
inductive Reg where
  | cmd | status | ctrHi | ctrLo | keyLen | msgLen | txtLen | offset | trunc
  deriving DecidableEq, Repr

/-- The four buffers (10_state R18 to R20, R22). -/
inductive Buf where
  | digest | keymem | msgmem | txtmem
  deriving DecidableEq, Repr

/-- A location of the port: a register, or a byte of a buffer (20_memory R40). -/
inductive Loc where
  | reg (r : Reg)
  | byte (b : Buf) (k : Nat)
  deriving DecidableEq, Repr

/-- The value a host read returns: 'a register moves as 32 bits and a buffer byte as 8 bits'
(45_common_semantics R164). -/
inductive PortValue where
  | word (w : Word)
  | byte (b : Byte)
  deriving DecidableEq, Repr

/-- An action of the host (30_encoding R68) or one of the pseudo-actions of R69 that depend on what a read
returns; the others are lists of these (Machine/Port.lean). -/
inductive HostAction where
  /-- `MemRead(addr, n)`: read `n` bytes at an offset of the port -/
  | memRead (addr n : Nat)
  /-- `MemWrite(addr, n, v)` -/
  | memWrite (addr n : Nat) (v : Word)
  /-- `RESET` (70_reset_and_hazards R200) -/
  | reset
  /-- `WAIT`: read STATUS until bit 0 is 0 -/
  | wait
  /-- `RDTXT`: read TXTLEN giving n, then the first n characters -/
  | rdTxt
  /-- `RDKEY`: read KEYLEN giving n, then the first n bytes of the key -/
  | rdKey
  /-- what is left of `RDTXT` or `RDKEY` after some of its reads: `RDB BUF[k]` and the `more` bytes that
  follow it, each a step of its own -/
  | readBytes (b : Buf) (k more : Nat)
  deriving DecidableEq, Repr

/-- The host's side of a run (70_reset_and_hazards R207) and the free value of 30_encoding R64: none of it
is state of the core. -/
structure HostSide where
  /-- the host's remaining actions -/
  actions : List HostAction
  /-- the values the host's reads have returned, oldest first -/
  reads : List PortValue
  /-- the busy window of 70_reset_and_hazards R204 is open: no STATUS read has returned BUSY = 0 since
  the last write to CMD, and no reset has come (assumption 6) -/
  window : Bool
  /-- the host moves the core still lets pass before it completes the command in flight (assumption 3) -/
  delay : Nat
  /-- how many commands have been issued: the argument of the next free value (assumption 3) -/
  issues : Nat
  deriving DecidableEq, Repr

/-- The core (10_state), its parameters, and the host's side. -/
@[ext]
structure State where
  /-- the parameters of 00_scope R3 -/
  cfg : Config
  /-- `CMD`, 10_state R11 -/
  cmd : Word
  /-- `STATUS.BUSY`, 10_state R23 -/
  busy : Bool
  /-- `STATUS.ERR`, 10_state R24 -/
  err : ErrCode
  /-- `CTR_HI`, 10_state R13 -/
  ctrHi : Word
  /-- `CTR_LO`, 10_state R13 -/
  ctrLo : Word
  /-- `KEYLEN`, 10_state R14 -/
  keyLen : Word
  /-- `MSGLEN`, 10_state R15 -/
  msgLen : Word
  /-- `TXTLEN`, 10_state R16 -/
  txtLen : Word
  /-- `OFFSET`, 10_state R17: 4 implemented bits -/
  offset : BitVec 4
  /-- register `TRUNC`, 10_state R21: 31 implemented bits -/
  trunc : BitVec 31
  /-- DIGEST, 10_state R22 -/
  digest : Memory
  /-- KEYMEM, 10_state R18 -/
  keymem : Memory
  /-- MSGMEM, 10_state R19 -/
  msgmem : Memory
  /-- TXTMEM, 10_state R20 -/
  txtmem : Memory
  /-- the host's side of the run -/
  host : HostSide
  deriving DecidableEq, Repr

/-- Why a step stops with a fault: nothing does. An error of a command is a code in STATUS and the machine
goes on (60_exceptions R183), 'the core has no access fault' (45_common_semantics R164), and an access that
the interface does not have is refused (20_memory R45, 93_implementation_defined U6). -/
inductive Fault where
  deriving DecidableEq, Repr

/-- Why a step is refused. No command is refused; all but the first are host moves that the spec gives no
meaning. -/
inductive Refusal where
  /-- Raised by an arm of exec whose instruction has no meaning yet; no arm raises it. Safe. -/
  | notModelled (mnemonic : String)
  /-- Raised by the port for an access other than a STATUS read in the busy window
  (70_reset_and_hazards R204). Safe: the spec gives the access no meaning. -/
  | accessInBusyWindow
  /-- Raised by the port for an access whose width is not the location's, or at an offset inside a
  register (20_memory R41). Safe: it is 'not an action of this interface'. -/
  | noSuchAccess (addr n : Nat)
  /-- Raised by the port for an access at an offset that the map leaves unassigned, or beyond the window
  (20_memory R45, R47). Safe: 'The spec gives it no meaning: a model refuses it'. -/
  | unassignedOffset (addr : Nat)
  /-- Raised by RDTXT and RDKEY at the first byte they name that the buffer does not have, once the bytes
  it has are read (30_encoding R69, 20_memory R45; assumption 17). Safe: no such location exists. -/
  | noSuchByte (b : Buf) (k : Nat)
  deriving DecidableEq, Repr

/-- The host's side before any action is placed. -/
def HostSide.idle : HostSide :=
  { actions := [], reads := [], window := false, delay := 0, issues := 0 }

/-- The core with every bit at its reset value (10_state R26), for given parameters and host. -/
def State.cleared (cfg : Config) (host : HostSide) : State :=
  { cfg := cfg
    cmd := 0
    busy := false
    err := .none
    ctrHi := 0
    ctrLo := 0
    keyLen := 0
    msgLen := 0
    txtLen := 0
    offset := 0
    trunc := 0
    digest := []
    keymem := []
    msgmem := []
    txtmem := []
    host := host }

/-- The machine right after reset: 'After reset every bit of state is zero' (10_state R26), with the
default parameters and a host that has no action left (assumptions 1 and 2). -/
def State.reset : State := State.cleared Config.default HostSide.idle

end Sys2Proof.Machine
end

