-- ==== Sys2Proof/Machine/Ops.lean ====
section
/-! DEFINITION. The named operations every command shares: reading and writing the bytes of a buffer, the
issue of a command (30_encoding R63), and its completion, with an error (60_exceptions R183, which stands
for exception entry here) or without (30_encoding R64). -/

namespace Sys2Proof.Machine

/-! ### The bytes of a buffer -/

namespace Memory

/-- `BUF[k]`; a byte that is not listed holds its reset content 0x00 (10_state R26). -/
def read : Memory → Nat → Byte
  | [], _ => 0#8
  | (j, x) :: rest, k => if k = j then x else read rest k

/-- `BUF[k] <- v`, keeping the indexes rising and listing no zero byte. -/
def write : Memory → Nat → Byte → Memory
  | [], k, v => if v = 0#8 then [] else [(k, v)]
  | (j, x) :: rest, k, v =>
    if k < j then (if v = 0#8 then (j, x) :: rest else (k, v) :: (j, x) :: rest)
    else if k = j then (if v = 0#8 then rest else (k, v) :: rest)
    else (j, x) :: write rest k v

/-- `BUF[a .. a+n)` as a byte sequence. -/
def readBytes (m : Memory) (a n : Nat) : List Byte := (List.range n).map fun i => read m (a + i)

/-- `BUF[a .. a+len(s)) <- s`. -/
def writeBytes : Memory → Nat → List Byte → Memory
  | m, _, [] => m
  | m, a, v :: vs => writeBytes (write m a v) (a + 1) vs

/-- The canonical form of a buffer of `cap` bytes: indexes strictly rising and below `cap`, no byte equal
to what an unlisted index reads as. -/
abbrev wf (cap : Nat) (m : Memory) : Prop :=
  m.Pairwise (fun x y => x.1 < y.1) ∧ ∀ c ∈ m, c.1 < cap ∧ c.2 ≠ 0#8

end Memory

/-! ### Issue and completion -/

namespace State

/-- What the write to CMD does to the core: 'CMD <- v; BUSY <- 1; ERR <- 0. Nothing else changes.'
(30_encoding R63). -/
def latch (s : State) (v : Word) : State := { s with cmd := v, busy := true, err := .none }

/-- The issue of a command: the latch, and the host's busy window opens and the free value of 30_encoding
R64 is drawn, from the count of issues alone (DESIGN CHOICE, assumption 3; 70_reset_and_hazards R208 leaves
open what the time depends on; assumption 6). -/
def issue (s : State) (v : Word) : State :=
  { s.latch v with
    host := { s.host with
      window := true
      delay := Config.completionDelay s.host.issues
      issues := s.host.issues + 1 } }

/-- The end of a command: 'ERR <- code; BUSY <- 0' (30_encoding R64). -/
def finish (s : State) (e : ErrCode) : State := { s with busy := false, err := e }

/-- Error completion, which stands for exception entry: 'its completion step does exactly this: ERR <-
code; BUSY <- 0' (60_exceptions R183). Nothing is saved and control goes nowhere; there is no return
instruction (60_exceptions R187): the next issue clears ERR. -/
def raise (s : State) (e : ErrCode) : State := s.finish e

/-- The completion of a command from its result: its writes and ERR <- 0, or the error and nothing else
(30_encoding R64). -/
def conclude (s : State) (r : Except ErrCode State) : State :=
  match r with
  | .ok t => t.finish .none
  | .error e => s.raise e

/-- RESET: every bit of the core's state at its reset value, 'possible in every state, BUSY = 1 included',
and the command in flight is abandoned (70_reset_and_hazards R200, R201). The host keeps its remaining
actions and what it has read; its busy window closes (assumptions 6 and 16). -/
def applyReset (s : State) : State :=
  .cleared s.cfg { s.host with window := false, delay := 0 }

end State

end Sys2Proof.Machine
end

