-- ==== Sys2Proof/Machine/Operands.lean ====
section
/-! DEFINITION. The operands of the commands. All are implicit (30_encoding R61): a command names buffer
bytes by index and a length register it has checked (45_common_semantics R164); the one index that is data
is OFFSET. -/

namespace Sys2Proof.Machine.State

/-- `CTR = CTR_HI * 2^32 + CTR_LO` (10_state R13). -/
def counter (s : State) : Nat := s.ctrHi.toNat * 2 ^ 32 + s.ctrLo.toNat

/-- `KEYMEM[0..KEYLEN)` (10_state R14). -/
def keyBytes (s : State) : List Byte := Memory.readBytes s.keymem 0 s.keyLen.toNat

/-- `MSGMEM[0..MSGLEN)` (10_state R15). -/
def msgBytes (s : State) : List Byte := Memory.readBytes s.msgmem 0 s.msgLen.toNat

/-- `TXTMEM[0..TXTLEN)` (10_state R16). -/
def txtBytes (s : State) : List Byte := Memory.readBytes s.txtmem 0 s.txtLen.toNat

/-- `DIGEST[i]`. -/
def digestByte (s : State) (i : Nat) : Byte := Memory.read s.digest i

end Sys2Proof.Machine.State
end

