-- ==== Sys2Proof/Machine/Base32.lean ====
section
/-! DEFINITION. Unit U4, the Base32 codec (40_base32): the alphabet, the group, and the commands B32DEC
and B32ENC. -/

namespace Sys2Proof.Machine

/-- `b32char(v)`: `0x41 + v` when `v <= 25`, `0x32 + (v - 26)` when `v >= 26` (40_base32 R80). -/
def b32char (v : BitVec 5) : Byte :=
  if v.toNat ≤ 25 then BitVec.ofNat 8 (0x41 + v.toNat) else BitVec.ofNat 8 (0x32 + (v.toNat - 26))

/-- `b32val(c)`: `c - 0x41` when `0x41 <= c <= 0x5A`, `c - 0x32 + 26` when `0x32 <= c <= 0x37`, and none
for every other byte (40_base32 R80). -/
def b32val (c : Byte) : Option (BitVec 5) :=
  if 0x41 ≤ c.toNat ∧ c.toNat ≤ 0x5A then some (BitVec.ofNat 5 (c.toNat - 0x41))
  else if 0x32 ≤ c.toNat ∧ c.toNat ≤ 0x37 then some (BitVec.ofNat 5 (c.toNat - 0x32 + 26))
  else none

/-- The eight characters of a group of five bytes: `V = be(b)`, `c[j] = b32char((V >> (35 - 5*j)) & 31)`
(40_base32 R81). -/
def encodeGroup (b : List Byte) : List Byte :=
  (List.range 8).map fun j => b32char (BitVec.ofNat 5 (be b >>> (35 - 5 * j)))

/-- The group value of the values of its characters: each counts 32 for each one after it, so eight of
them give `V = sum over j of v[j] * 2^(35 - 5*j)` (40_base32 R81). -/
def groupValue : List (BitVec 5) → Nat
  | [] => 0
  | v :: vs => v.toNat * 2 ^ (5 * vs.length) + groupValue vs

/-- The five bytes of a group of eight values: `b = to_be(V, 5)` (40_base32 R81). -/
def decodeGroup (vs : List (BitVec 5)) : List Byte := toBe (groupValue vs) 5

/-- The bytes of the first n groups of values (the loop of 40_base32 R82). -/
def decodeGroups : Nat → List (BitVec 5) → List Byte
  | 0, _ => []
  | n + 1, vs => decodeGroup (vs.take 8) ++ decodeGroups n (vs.drop 8)

/-- The characters of the first n groups of bytes (the loop of 40_base32 R86). -/
def encodeGroups : Nat → List Byte → List Byte
  | 0, _ => []
  | n + 1, bs => encodeGroup (bs.take 5) ++ encodeGroups n (bs.drop 5)

/-- The values of the characters, or none when one of them has none (40_base32 R82, check 3). -/
def textValues : List Byte → Option (List (BitVec 5))
  | [] => some []
  | c :: cs =>
    match b32val c, textValues cs with
    | some v, some vs => some (v :: vs)
    | _, _ => none

/-- B32DEC from TXTMEM to KEYMEM and KEYLEN, the three checks in their order (40_base32 R82). -/
def b32decResult (s : State) : Except ErrCode State :=
  if s.cfg.txtCap < s.txtLen.toNat then .error .badOperand
  else if s.txtLen.toNat % 8 ≠ 0 then .error .invalidEncoding
  else
    match textValues s.txtBytes with
    | none => .error .invalidCharacter
    | some vs =>
      .ok { s with
        keymem := Memory.writeBytes s.keymem 0 (decodeGroups (s.txtLen.toNat / 8) vs)
        keyLen := BitVec.ofNat 32 (5 * s.txtLen.toNat / 8) }

/-- B32DEC (40_base32 R82). -/
def execB32dec (s : State) : Host.Outcome State Fault Refusal := .next (s.conclude (b32decResult s))

/-- B32ENC from KEYMEM to TXTMEM and TXTLEN, the two checks in their order (40_base32 R86). -/
def b32encResult (s : State) : Except ErrCode State :=
  if s.cfg.keyCap < s.keyLen.toNat then .error .badOperand
  else if s.keyLen.toNat % 5 ≠ 0 then .error .badOperand
  else
    .ok { s with
      txtmem := Memory.writeBytes s.txtmem 0 (encodeGroups (s.keyLen.toNat / 5) s.keyBytes)
      txtLen := BitVec.ofNat 32 (8 * s.keyLen.toNat / 5) }

/-- B32ENC (40_base32 R86). -/
def execB32enc (s : State) : Host.Outcome State Fault Refusal := .next (s.conclude (b32encResult s))

end Sys2Proof.Machine
end

