-- ==== Sys2Proof/Machine/Counter.lean ====
section
/-! DEFINITION. Unit U2, the time-counter serializer: CTRSER (41_counter). -/

namespace Sys2Proof.Machine

/-- `MSGMEM[0..8) <- to_be(CTR, 8)`, `MSGLEN <- 8` (41_counter R100). 'CTRSER succeeds from every state.' -/
def ctrserResult (s : State) : Except ErrCode State :=
  .ok { s with msgmem := Memory.writeBytes s.msgmem 0 (toBe s.counter 8), msgLen := 8 }

/-- CTRSER (41_counter R100). -/
def execCtrser (s : State) : Host.Outcome State Fault Refusal := .next (s.conclude (ctrserResult s))

end Sys2Proof.Machine
end

