-- ==== Sys2Proof/Machine/Sha1.lean ====
section
/-! DEFINITION. SHA-1 as a function on byte sequences (42_hmac_sha1 R110 to R116). Its working variables
are not state of the machine (10_state R27). -/

namespace Sys2Proof.Machine

namespace Sha1

/-- Five 32-bit words: a hash value (42_hmac_sha1 R110) or the round variables (R115). -/
structure Hash where
  a : Word
  b : Word
  c : Word
  d : Word
  e : Word
  deriving DecidableEq, Repr

/-- The initial hash value (42_hmac_sha1 R110). -/
def initial : Hash := ⟨0x67452301, 0xEFCDAB89, 0x98BADCFE, 0x10325476, 0xC3D2E1F0⟩

/-- `z = (55 - n) mod 64`, the least number with `(n + 1 + z + 8) mod 64 = 0` (42_hmac_sha1 R111),
written without a negative number. -/
def padZeros (n : Nat) : Nat := (119 - n % 64) % 64

/-- `pad(m) = m || 0x80 || zeros(z) || to_be(8*n, 8)` (42_hmac_sha1 R111). -/
def pad (m : List Byte) : List Byte :=
  m ++ [0x80] ++ zeros (padZeros m.length) ++ toBe (8 * m.length) 8

/-- The first n words of a block, `M[t] = be(block[4*t .. 4*t+4))` (42_hmac_sha1 R112). -/
def wordsOf : Nat → List Byte → List Word
  | 0, _ => []
  | n + 1, bs => BitVec.ofNat 32 (be (bs.take 4)) :: wordsOf n (bs.drop 4)

/-- The next word of the schedule from the words before it, latest first: `rotl32(W[t-3] ^ W[t-8] ^
W[t-14] ^ W[t-16], 1)` (42_hmac_sha1 R113). -/
def nextWord (latestFirst : List Word) : Word :=
  (latestFirst.getD 2 0 ^^^ latestFirst.getD 7 0 ^^^ latestFirst.getD 13 0 ^^^
    latestFirst.getD 15 0).rotateLeft 1

/-- n more words of the schedule, latest first. -/
def extend : Nat → List Word → List Word
  | 0, ws => ws
  | n + 1, ws => extend n (nextWord ws :: ws)

/-- The 80 words `W[0..80)` of a block from its sixteen words (42_hmac_sha1 R113). -/
def schedule (m : List Word) : List Word := (extend 64 m.reverse).reverse

/-- `f(t, b, c, d)` (42_hmac_sha1 R114). -/
def roundFunction (t : Nat) (b c d : Word) : Word :=
  if t ≤ 19 then (b &&& c) ||| (~~~b &&& d)
  else if t ≤ 39 then b ^^^ c ^^^ d
  else if t ≤ 59 then (b &&& c) ||| (b &&& d) ||| (c &&& d)
  else b ^^^ c ^^^ d

/-- `K(t)` (42_hmac_sha1 R114). -/
def roundConstant (t : Nat) : Word :=
  if t ≤ 19 then 0x5A827999
  else if t ≤ 39 then 0x6ED9EBA1
  else if t ≤ 59 then 0x8F1BBCDC
  else 0xCA62C1D6

/-- Round t with the word W[t]: `(a, b, c, d, e) <- (T, a, rotl32(b, 30), c, d)`, with `T = rotl32(a, 5)
+32 f(t, b, c, d) +32 e +32 K(t) +32 W[t]` (42_hmac_sha1 R115). -/
def oneRound (t : Nat) (w : Word) (h : Hash) : Hash :=
  { a := h.a.rotateLeft 5 + roundFunction t h.b h.c h.d + h.e + roundConstant t + w
    b := h.a
    c := h.b.rotateLeft 30
    d := h.c
    e := h.d }

/-- The rounds from t on, one for each word of the list. -/
def rounds : Nat → List Word → Hash → Hash
  | _, [], h => h
  | t, w :: ws, h => rounds (t + 1) ws (oneRound t w h)

/-- Addition of two hash values word by word, modulo 2^32 (the last line of 42_hmac_sha1 R115). -/
def Hash.add (h k : Hash) : Hash := ⟨h.a + k.a, h.b + k.b, h.c + k.c, h.d + k.d, h.e + k.e⟩

/-- The compression of one block (42_hmac_sha1 R115). -/
def compress (h : Hash) (block : List Byte) : Hash :=
  h.add (rounds 0 (schedule (wordsOf 16 block)) h)

/-- The first n blocks of 64 bytes in order, each put into the hash value by `f` (42_hmac_sha1 R110,
R112). -/
def foldBlocks (f : Hash → List Byte → Hash) : Nat → List Byte → Hash → Hash
  | 0, _, h => h
  | n + 1, bs, h => foldBlocks f n (bs.drop 64) (f h (bs.take 64))

/-- The 20 bytes of a hash value (42_hmac_sha1 R116). -/
def Hash.bytes (h : Hash) : List Byte :=
  toBe h.a.toNat 4 ++ toBe h.b.toNat 4 ++ toBe h.c.toNat 4 ++ toBe h.d.toNat 4 ++ toBe h.e.toNat 4

end Sha1

/-- `SHA1(m)` (42_hmac_sha1 R110). -/
def sha1 (m : List Byte) : List Byte :=
  (Sha1.foldBlocks Sha1.compress ((Sha1.pad m).length / 64) (Sha1.pad m) Sha1.initial).bytes

end Sys2Proof.Machine
end

