-- ==== Sys2Proof/Machine/Hmac.lean ====
section
/-! DEFINITION. Unit U1, HMAC-SHA1: the construction (42_hmac_sha1 R117) and the command HMAC (R118). -/

namespace Sys2Proof.Machine

/-- `K0`, 64 bytes: the key padded with zeros, or, when it is longer than 64 bytes, its hash padded with
zeros (42_hmac_sha1 R117). -/
def blockKey (key : List Byte) : List Byte :=
  if 64 < key.length then sha1 key ++ zeros 44 else key ++ zeros (64 - key.length)

/-- Each byte of K0 exclusive-or the pad byte: `ipad` for 0x36, `opad` for 0x5C (42_hmac_sha1 R117). -/
def padKey (k0 : List Byte) (p : Byte) : List Byte := k0.map (· ^^^ p)

/-- `HMACSHA1(key, msg) = SHA1(opad || SHA1(ipad || msg))` (42_hmac_sha1 R117). -/
def hmacSha1 (key msg : List Byte) : List Byte :=
  sha1 (padKey (blockKey key) 0x5C ++ sha1 (padKey (blockKey key) 0x36 ++ msg))

/-- `DIGEST[0..20) <- HMACSHA1(KEYMEM[0..KEYLEN), MSGMEM[0..MSGLEN))`, or BadOperand when a length exceeds
its buffer (42_hmac_sha1 R118). -/
def hmacResult (s : State) : Except ErrCode State :=
  if s.cfg.keyCap < s.keyLen.toNat then .error .badOperand
  else if s.cfg.msgCap < s.msgLen.toNat then .error .badOperand
  else .ok { s with digest := Memory.writeBytes s.digest 0 (hmacSha1 s.keyBytes s.msgBytes) }

/-- HMAC (42_hmac_sha1 R118). -/
def execHmac (s : State) : Host.Outcome State Fault Refusal := .next (s.conclude (hmacResult s))

end Sys2Proof.Machine
end

