-- ==== Sys2Proof/Machine/Truncation.lean ====
section
/-! DEFINITION. Unit U3, the offset extractor and the digest byte-selector: DOFF and TRUNC
(43_truncation). -/

namespace Sys2Proof.Machine

/-- `OFFSET <- DIGEST[19] & 0x0F` (43_truncation R140). 'DOFF succeeds from every state.' -/
def doffResult (s : State) : Except ErrCode State :=
  .ok { s with offset := (s.digestByte 19 &&& 0x0F).setWidth 4 }

/-- DOFF (43_truncation R140). -/
def execDoff (s : State) : Host.Outcome State Fault Refusal := .next (s.conclude (doffResult s))

/-- The 31-bit value of the window of four bytes at `o`: the formula of 43_truncation R141. -/
def windowValue (s : State) (o : Nat) : BitVec 31 :=
  ((s.digestByte o &&& 0x7F).setWidth 31 <<< 24) |||
    ((s.digestByte (o + 1) &&& 0xFF).setWidth 31 <<< 16) |||
    ((s.digestByte (o + 2) &&& 0xFF).setWidth 31 <<< 8) |||
    (s.digestByte (o + 3) &&& 0xFF).setWidth 31

/-- Register TRUNC gets the window at OFFSET as it stands (43_truncation R141). 'TRUNC succeeds from every
state; no offset can be out of range.' -/
def truncResult (s : State) : Except ErrCode State :=
  .ok { s with trunc := windowValue s s.offset.toNat }

/-- TRUNC (43_truncation R141). -/
def execTrunc (s : State) : Host.Outcome State Fault Refusal := .next (s.conclude (truncResult s))

end Sys2Proof.Machine
end

