-- ==== Sys2Proof/Machine/Dispatch.lean ====
section
/-! DEFINITION. The completion of each command (30_encoding R64): one arm per constructor of Instr, each
one call of its meaning. -/

namespace Sys2Proof.Machine

/-- What the completion step does with a decoded command (30_encoding R64). -/
def exec (i : Instr) (s : State) : Host.Outcome State Fault Refusal :=
  match i with
  | .ctrser => Sys2Proof.Machine.execCtrser s
  | .hmac => Sys2Proof.Machine.execHmac s
  | .doff => Sys2Proof.Machine.execDoff s
  | .trunc => Sys2Proof.Machine.execTrunc s
  | .b32dec => Sys2Proof.Machine.execB32dec s
  | .b32enc => Sys2Proof.Machine.execB32enc s

end Sys2Proof.Machine
end

