-- ==== Sys2Proof/Machine/Completion.lean ====
section
/-! DEFINITION. The core's one kind of step, completion (30_encoding R64), and when it is the core that
moves. -/

namespace Sys2Proof.Machine

/-- `complete()`: decode CMD and perform the command, or IllegalCommand for a word that is none
(30_encoding R64, R65; 60_exceptions R182). -/
def complete (s : State) : Host.Outcome State Fault Refusal :=
  match decode s.cmd with
  | .ok i => exec i s
  | .error _ => .next (s.raise .illegalCommand)

/-- The core moves: a command is in flight ('enabled iff BUSY = 1', 30_encoding R64), and the core lets no
more host moves pass, or the host has none left, so that completion is the one step there is
(70_reset_and_hazards R207; assumptions 3 and 4). -/
def State.coreMoves (s : State) : Bool := s.busy && (s.host.delay == 0 || s.host.actions.isEmpty)

/-- The state in which a command word has been issued and its completion is the next step. -/
def State.withIssued (s : State) (w : Word) : State :=
  { s.latch w with host := { s.host with window := true, delay := 0 } }

end Sys2Proof.Machine
end

