-- ==== Sys2Proof/Machine/Flags.lean ====
section
/-! DEFINITION. The flags of the core, BUSY and ERR, 'the only flags the core has' (10_state R24), and the
value of STATUS (10_state R12). -/

namespace Sys2Proof.Machine

/-- The codes of `STATUS.ERR` (60_exceptions R180). -/
def ErrCode.code : ErrCode → BitVec 3
  | .none => 0
  | .invalidEncoding => 1
  | .invalidCharacter => 2
  | .badOperand => 3
  | .illegalCommand => 4

/-- 'The value a host read returns is exactly (ERR << 8) | BUSY' (10_state R12). -/
def State.status (s : State) : Word :=
  (s.err.code.setWidth 32 <<< 8) ||| (if s.busy then 1 else 0)

/-- Bits 10:8 of a value read from STATUS: the result of RUN m (30_encoding R69). -/
def errField (status : Word) : BitVec 3 := status.extractLsb' 8 3

end Sys2Proof.Machine
end

