-- ==== Sys2Proof/Machine/Port.lean ====
section
/-! DEFINITION. The host port (20_memory): the map of locations, what a read and a write of each location
does, the busy window (70_reset_and_hazards R204), and the host's notation with its pseudo-actions
(30_encoding R68, R69). -/

namespace Sys2Proof.Machine

/-! ### The map (20_memory R41, R47) -/

/-- The word index of a register (10_state R10). -/
def Reg.index : Reg → Nat
  | .cmd => 0
  | .status => 1
  | .ctrHi => 2
  | .ctrLo => 3
  | .keyLen => 4
  | .msgLen => 5
  | .txtLen => 6
  | .offset => 7
  | .trunc => 8

/-- The register of a word index. -/
def regOfIndex : Nat → Option Reg
  | 0 => some .cmd
  | 1 => some .status
  | 2 => some .ctrHi
  | 3 => some .ctrLo
  | 4 => some .keyLen
  | 5 => some .msgLen
  | 6 => some .txtLen
  | 7 => some .offset
  | 8 => some .trunc
  | _ => none

/-- How many bytes a buffer has (10_state R18 to R20, R22). -/
def Buf.cap (c : Config) : Buf → Nat
  | .digest => 20
  | .keymem => c.keyCap
  | .msgmem => c.msgCap
  | .txtmem => c.txtCap

/-- The port offset of a buffer's byte 0 (20_memory R47). -/
def Buf.base (c : Config) : Buf → Nat
  | .digest => 0x040
  | .keymem => c.keyBase
  | .msgmem => c.msgBase
  | .txtmem => c.txtBase

/-- The first offset above the nine registers (20_memory R47: '0x000 to 0x023'). -/
def registersEnd : Nat := 0x024

/-- The offset of a location: register i at `4*i`, byte k of a buffer k above its byte 0 (20_memory R47). -/
def Loc.offset (c : Config) : Loc → Nat
  | .reg r => 4 * r.index
  | .byte b k => b.base c + k

/-- The one width a location is accessed at: 4 bytes for a register, 1 for a buffer byte (20_memory R41). -/
def Loc.width : Loc → Nat
  | .reg _ => 4
  | .byte _ _ => 1

/-- A location exists: every register, and the bytes of a buffer below its capacity. -/
def Loc.exists (c : Config) : Loc → Bool
  | .reg _ => true
  | .byte b k => k < b.cap c

/-- The offset is one of the buffer's. -/
def Buf.holds (c : Config) (b : Buf) (addr : Nat) : Bool := b.base c ≤ addr && addr < b.base c + b.cap c

/-- The location at an offset of the port; none at an unassigned offset and at an offset inside a register
(20_memory R41, R45, R47). -/
def locate (c : Config) (addr : Nat) : Option Loc :=
  if addr < registersEnd then
    if addr % 4 = 0 then (regOfIndex (addr / 4)).map Loc.reg else none
  else
    ([Buf.digest, .keymem, .msgmem, .txtmem].find? (·.holds c addr)).map
      fun b => Loc.byte b (addr - b.base c)

/-- A port access has the shape of 20_memory R41: it names a location that exists, at that location's
width. -/
def HostAction.wellShaped (c : Config) : HostAction → Bool
  | .memRead addr n => (locate c addr).any (·.width == n)
  | .memWrite addr n _ => (locate c addr).any (·.width == n)
  | .reset => true
  | .wait => true
  | .rdTxt => true
  | .rdKey => true
  | .readBytes b k _ => k < b.cap c

/-! ### Reading and writing a location (20_memory R42 to R44) -/

namespace State

/-- The value a read of a register returns (20_memory R42; 10_state R11 to R17, R21). -/
def readReg (s : State) : Reg → Word
  | .cmd => s.cmd
  | .status => s.status
  | .ctrHi => s.ctrHi
  | .ctrLo => s.ctrLo
  | .keyLen => s.keyLen
  | .msgLen => s.msgLen
  | .txtLen => s.txtLen
  | .offset => s.offset.setWidth 32
  | .trunc => s.trunc.setWidth 32

/-- A write of a register (20_memory R43): CMD issues a command; STATUS and TRUNC ignore it; OFFSET keeps
bits 3:0. -/
def writeReg (s : State) (r : Reg) (v : Word) : State :=
  match r with
  | .cmd => s.issue v
  | .status => s
  | .ctrHi => { s with ctrHi := v }
  | .ctrLo => { s with ctrLo := v }
  | .keyLen => { s with keyLen := v }
  | .msgLen => { s with msgLen := v }
  | .txtLen => { s with txtLen := v }
  | .offset => { s with offset := v.setWidth 4 }
  | .trunc => s

/-- The bytes of a buffer. -/
def buffer (s : State) : Buf → Memory
  | .digest => s.digest
  | .keymem => s.keymem
  | .msgmem => s.msgmem
  | .txtmem => s.txtmem

/-- The state with other bytes in a buffer. -/
def setBuffer (s : State) (b : Buf) (m : Memory) : State :=
  match b with
  | .digest => { s with digest := m }
  | .keymem => { s with keymem := m }
  | .msgmem => { s with msgmem := m }
  | .txtmem => { s with txtmem := m }

/-- `BUF[k]` (20_memory R44). -/
def byteAt (s : State) (b : Buf) (k : Nat) : Byte := Memory.read (s.buffer b) k

/-- `BUF[k] <- v` (20_memory R44). -/
def setByte (s : State) (b : Buf) (k : Nat) (v : Byte) : State :=
  s.setBuffer b (Memory.write (s.buffer b) k v)

/-- What a read of a location returns (20_memory R42, R44). -/
def valueAt (s : State) : Loc → PortValue
  | .reg r => .word (s.readReg r)
  | .byte b k => .byte (s.byteAt b k)

/-- What a write of a location does; a buffer byte takes `v[7:0]` (20_memory R43, R44). -/
def store (s : State) (l : Loc) (v : Word) : State :=
  match l with
  | .reg r => s.writeReg r v
  | .byte b k => s.setByte b k (v.setWidth 8)

/-! ### The host's side of an access -/

/-- The host has read a value: 'A read changes no state' of the core (20_memory R42). -/
def record (s : State) (v : PortValue) : State :=
  { s with host := { s.host with reads := s.host.reads ++ [v] } }

/-- The host's next action is taken from its list, and the core has let one more host move pass. -/
def popAction (s : State) (rest : List HostAction) : State :=
  { s with host := { s.host with actions := rest, delay := s.host.delay - 1 } }

/-- Actions stand before the host's remaining ones. -/
def pushActions (s : State) (as : List HostAction) : State :=
  { s with host := { s.host with actions := as ++ s.host.actions } }

/-- The port takes every access: no command is in flight and the busy window is closed
(70_reset_and_hazards R204; assumption 6). -/
def portOpen (s : State) : Bool := !s.busy && !s.host.window

/-- A read of STATUS, defined at any time (20_memory R42, R46). One that returns BUSY = 0 closes the busy
window (70_reset_and_hazards R204). -/
def readStatus (s : State) : State :=
  let t := s.record (.word s.status)
  { t with host := { t.host with window := s.busy && t.host.window } }

end State

/-- An access by its offset and width: what it does at a location of that width, or why it has no meaning
(20_memory R41, R45; assumption 7). -/
def atLocation (s : State) (addr n : Nat) (act : Loc → Host.Outcome State Fault Refusal) :
    Host.Outcome State Fault Refusal :=
  match locate s.cfg addr with
  | some l => if l.width = n then act l else .refused (.noSuchAccess addr n)
  | none => .refused (if addr < registersEnd then .noSuchAccess addr n else .unassignedOffset addr)

/-- A host read of a location (20_memory R42, R44, R46). -/
def portRead (s : State) (l : Loc) : Host.Outcome State Fault Refusal :=
  if l = .reg .status then .next s.readStatus
  else if s.portOpen then .next (s.record (s.valueAt l))
  else .refused .accessInBusyWindow

/-- A host write of a location (20_memory R43, R44, R46). -/
def portWrite (s : State) (l : Loc) (v : Word) : Host.Outcome State Fault Refusal :=
  if s.portOpen then .next (s.store l v) else .refused .accessInBusyWindow

/-! ### The host's notation (30_encoding R68, R69) -/

namespace HostAction

/-- `WR reg, v`. -/
def wr (r : Reg) (v : Word) : HostAction := .memWrite (4 * r.index) 4 v

/-- `RD reg`. -/
def rd (r : Reg) : HostAction := .memRead (4 * r.index) 4

/-- `WRB BUF[k], v`, at the offset k above the buffer's byte 0. For an index the buffer does not have, which
30_encoding R68 and 20_memory R47 give no offset, this is the write at that offset all the same, whatever the
map has there (DESIGN CHOICE, assumption 25; unsafe). No pseudo-action uses such an index. -/
def wrb (c : Config) (b : Buf) (k : Nat) (v : Byte) : HostAction :=
  .memWrite (b.base c + k) 1 (v.setWidth 32)

/-- `RDB BUF[k]`, at the offset k above the buffer's byte 0. For an index the buffer does not have this is the
read at that offset all the same, as for `wrb` (DESIGN CHOICE, assumption 25; unsafe); the reads of RDTXT and
RDKEY are by name (`readNextByte`). -/
def rdb (c : Config) (b : Buf) (k : Nat) : HostAction := .memRead (b.base c + k) 1

/-- `CMD m`: `WR CMD, match(m)`. -/
def cmd (i : Instr) : HostAction := wr .cmd (encode i)

/-- `RUN m`: `CMD m` then `WAIT`. -/
def run (i : Instr) : List HostAction := [cmd i, wait]

/-- `WRB BUF[k], s[k]` for the bytes of a sequence in ascending order, from index k on. -/
def wrbs (c : Config) (b : Buf) : Nat → List Byte → List HostAction
  | _, [] => []
  | k, v :: vs => wrb c b k v :: wrbs c b (k + 1) vs

/-- The load of a byte sequence that fits its buffer: its bytes from index 0 on, then its length. -/
def load (c : Config) (b : Buf) (len : Reg) (s : List Byte) : Option (List HostAction) :=
  if s.length ≤ b.cap c then some (wrbs c b 0 s ++ [wr len (BitVec.ofNat 32 s.length)]) else none

/-- `LDKEY s`, for `len(s) <= KEY_CAP`. -/
def ldKey (c : Config) : List Byte → Option (List HostAction) := load c .keymem .keyLen

/-- `LDMSG s`, for `len(s) <= MSG_CAP`. -/
def ldMsg (c : Config) : List Byte → Option (List HostAction) := load c .msgmem .msgLen

/-- `LDTXT s`, for `len(s) <= TXT_CAP`. -/
def ldTxt (c : Config) : List Byte → Option (List HostAction) := load c .txtmem .txtLen

/-- `LDCTR v`: `WR CTR_HI, v >> 32` then `WR CTR_LO, v & 0xFFFFFFFF`. -/
def ldCtr (v : BitVec 64) : List HostAction :=
  [wr .ctrHi (v.extractLsb' 32 32), wr .ctrLo (v.extractLsb' 0 32)]

/-- `LDDIG s`, for `len(s) = 20`. -/
def ldDig (c : Config) (s : List Byte) : Option (List HostAction) :=
  if s.length = 20 then some (wrbs c .digest 0 s) else none

/-- `RDB BUF[k]` for `k = 0 .. n-1`. -/
def rdbs (c : Config) (b : Buf) (n : Nat) : List HostAction := (List.range n).map (rdb c b)

/-- `RDDIG`. -/
def rdDig (c : Config) : List HostAction := rdbs c .digest 20

/-- The `n` byte reads from index k on that are left of `RDTXT` or `RDKEY`: none, or the action that stands
for them. -/
def bytesFrom (b : Buf) (k : Nat) : Nat → List HostAction
  | 0 => []
  | more + 1 => [.readBytes b k more]

end HostAction

/-- `RDTXT` and `RDKEY`: `RD` of the length register giving `n`, then the first `n` bytes of the buffer, each
read a step of its own (30_encoding R69). -/
def readCounted (s : State) (r : Reg) (b : Buf) : Host.Outcome State Fault Refusal :=
  if s.portOpen then
    .next ((s.record (.word (s.readReg r))).pushActions
      (HostAction.bytesFrom b 0 (s.readReg r).toNat))
  else .refused .accessInBusyWindow

/-- `RDB BUF[k]` for the byte by its name, and then the `more` bytes that follow it. A byte that the buffer
does not have is no location, whatever stands at the next offset of the map (20_memory R45; assumption 17). -/
def readNextByte (s : State) (b : Buf) (k more : Nat) : Host.Outcome State Fault Refusal :=
  if k < b.cap s.cfg then
    if s.portOpen then
      .next ((s.record (.byte (s.byteAt b k))).pushActions (HostAction.bytesFrom b (k + 1) more))
    else .refused .accessInBusyWindow
  else .refused (.noSuchByte b k)

/-- One host action, already taken from the host's list. -/
def hostAct (a : HostAction) (s : State) : Host.Outcome State Fault Refusal :=
  match a with
  | .memRead addr n => atLocation s addr n (portRead s)
  | .memWrite addr n v => atLocation s addr n (portWrite s · v)
  | .reset => .next s.applyReset
  | .wait => .next (if s.busy then s.readStatus.pushActions [.wait] else s.readStatus)
  | .rdTxt => readCounted s .txtLen .txtmem
  | .rdKey => readCounted s .keyLen .keymem
  | .readBytes b k more => readNextByte s b k more

end Sys2Proof.Machine
end

