-- ==== Sys2Proof/Machine/Step.lean ====
section
/-! DEFINITION. One step of the machine: the core's completion or one action of the host (00_scope R5). -/

namespace Sys2Proof.Machine

/-- The core completes when it moves; else the host performs its next action; a host with no action left
and a core with no command in flight stand still: 'The run has ended' (70_reset_and_hazards R207;
assumption 5). -/
def step (s : State) : Host.Outcome State Fault Refusal :=
  if s.coreMoves then complete s
  else
    match s.host.actions with
    | [] => .next s
    | a :: rest => hostAct a (s.popAction rest)

/-- The state whose very next step completes the command word: the core fetches nothing (10_state R28),
'the command word is the data of the CMD write itself' (20_memory R55), so the word stands in CMD, issued,
and its completion is due (assumptions 2 and 18). -/
def State.withFetchWord (s : State) (_nbits w : Nat) : State := s.withIssued (BitVec.ofNat 32 w)

end Sys2Proof.Machine
end

