-- ==== Sys2Proof/Machine/HostFunctions.lean ====
section
/-! DEFINITION. The host's side of the token functions (44_host_composition): functions the host computes
itself, and sequences of host actions as functions on states, in which RUN m is one atomic action
(30_encoding R70; assumption 23). The Clock's time and the random bytes are draws: arguments
(44_host_composition R151, R156). `none` says that the function has no value there, 'a model refuses the
call' (44_host_composition R150). -/

namespace Sys2Proof.Machine

/-! ### Functions the host computes itself -/

/-- `epoch()`, 1970-01-01, as a number of days since the first day of the calendar's year 1
(44_host_composition R151). -/
def epochDays : Nat := 719162

/-- A leap year of the proleptic Gregorian calendar. -/
def isLeap (year : Nat) : Bool := year % 4 == 0 && (year % 100 != 0 || year % 400 == 0)

/-- How many days the months before this one have. -/
def daysBeforeMonth (year month : Nat) : Nat :=
  (([31, if isLeap year then 29 else 28, 31, 30, 31, 30, 31, 31, 30, 31, 30, 31] : List Nat).take
    (month - 1)).sum

/-- The seconds from the epoch to a UTC calendar time, 'by the proleptic Gregorian calendar with no leap
seconds' (44_host_composition R151): a time `T` that the Clock may give. -/
def unixSeconds (year month day hour minute second : Nat) : Int :=
  let days : Int :=
    365 * (year - 1 : Nat) + (year - 1) / 4 - (year - 1) / 100 + (year - 1) / 400 +
      daysBeforeMonth year month + (day - 1 : Nat) - epochDays
  days * 86400 + hour * 3600 + minute * 60 + second

/-- `buildCounter`: `floor(T / stepSeconds) + stepOffset`, for an integer step of at least 1, a time `T >=
0` and a result in `0 .. 2^64 - 1` (44_host_composition R150; defaults 00_scope R4). `T` is the drawn
`now() - epoch()` in seconds, with a fraction (R151; assumption 12). -/
def buildCounter (T : ℚ) (stepSeconds : Int := 30) (stepOffset : Int := 0) : Option Nat :=
  if 1 ≤ stepSeconds ∧ 0 ≤ T then
    let c := ⌊T / (stepSeconds : ℚ)⌋ + stepOffset
    if 0 ≤ c ∧ c < 2 ^ 64 then some c.toNat else none
  else none

/-- `extractDigits`: character i is `0x30 + (floor(r / 10^(digitCount - 1 - i)) mod 10)` with `r =
truncatedValue mod 10^digitCount`, for a truncated value below 2^31 and at least one digit
(44_host_composition R152). -/
def extractDigits (truncatedValue : Nat) (digitCount : Nat := 6) : Option (List Byte) :=
  if truncatedValue < 2 ^ 31 ∧ 1 ≤ digitCount then
    let r := truncatedValue % 10 ^ digitCount
    some ((List.range digitCount).map fun i =>
      BitVec.ofNat 8 (0x30 + r / 10 ^ (digitCount - 1 - i) % 10))
  else none

/-- `remainingSeconds = stepSeconds - (floor(T) mod stepSeconds)` (44_host_composition R154). -/
def remainingSeconds (T : ℚ) (stepSeconds : Int := 30) : Option Int :=
  if 1 ≤ stepSeconds ∧ 0 ≤ T then some (stepSeconds - ⌊T⌋ % stepSeconds) else none

/-! ### Sequences of host actions -/

/-- The host's actions for a token once the counter is built: `LDKEY secret; LDCTR counter; RUN CTRSER;
RUN HMAC; RUN DOFF; RUN TRUNC; RD TRUNC` (44_host_composition R153). -/
def HostAction.token (c : Config) (secret : List Byte) (counter : Nat) : Option (List HostAction) :=
  (ldKey c secret).map fun load =>
    load ++ ldCtr (BitVec.ofNat 64 counter) ++ run .ctrser ++ run .hmac ++ run .doff ++ run .trunc ++
      [rd .trunc]

/-- The host's actions of `generate` for the drawn bytes: `LDKEY s; RUN B32ENC; RDTXT` (44_host_composition
R156). -/
def HostAction.generate (c : Config) (drawn : List Byte) : Option (List HostAction) :=
  (ldKey c drawn).map fun load => load ++ run .b32enc ++ [rdTxt]

/-- The host's actions of `decodeSecret` up to its test of ERR: `LDTXT text; RUN B32DEC`; `RDKEY` follows
when ERR is 0 (44_host_composition R157). -/
def HostAction.decode (c : Config) (text : List Byte) : Option (List HostAction) :=
  (ldTxt c text).map fun load => load ++ run .b32dec

namespace State

/-- `LDKEY s` (30_encoding R69). -/
def loadKey (s : State) (key : List Byte) : Option State :=
  if s.portOpen ∧ key.length ≤ s.cfg.keyCap then
    some { s with
      keymem := Memory.writeBytes s.keymem 0 key
      keyLen := BitVec.ofNat 32 key.length }
  else none

/-- `LDTXT s` (30_encoding R69). -/
def loadTxt (s : State) (text : List Byte) : Option State :=
  if s.portOpen ∧ text.length ≤ s.cfg.txtCap then
    some { s with
      txtmem := Memory.writeBytes s.txtmem 0 text
      txtLen := BitVec.ofNat 32 text.length }
  else none

/-- `LDCTR v` (30_encoding R69). -/
def loadCtr (s : State) (v : BitVec 64) : Option State :=
  if s.portOpen then
    some { s with ctrHi := v.extractLsb' 32 32, ctrLo := v.extractLsb' 0 32 }
  else none

/-- `RUN m` as one atomic action (30_encoding R69, R70): the issue and the completion. -/
def runCommand (s : State) (i : Instr) : Option State :=
  if s.portOpen then
    match exec i (s.latch (encode i)) with
    | .next t => some t
    | .fault _ => none
    | .refused _ => none
  else none

/-- The part of `computeToken` after the key is in place: `LDCTR counter; RUN CTRSER; RUN HMAC; RUN DOFF;
RUN TRUNC; RD TRUNC`, then six digits (44_host_composition R153). -/
def tokenOfLoadedKey (s : State) (counter : Nat) : Option (List Byte × State) := do
  let s ← s.loadCtr (BitVec.ofNat 64 counter)
  let s ← s.runCommand .ctrser
  let s ← s.runCommand .hmac
  let s ← s.runCommand .doff
  let s ← s.runCommand .trunc
  let code ← extractDigits s.trunc.toNat 6
  pure (code, s)

/-- `computeToken(secret, stepSeconds, stepOffset)` at the time `T` that its one reading of the Clock gives
(44_host_composition R153). -/
def computeToken (s : State) (secret : List Byte) (T : ℚ) (stepSeconds : Int := 30)
    (stepOffset : Int := 0) : Option (List Byte × State) := do
  let counter ← buildCounter T stepSeconds stepOffset
  let s ← s.loadKey secret
  s.tokenOfLoadedKey counter

/-- The loop of `verify` over the offsets of the window, each with the time its `computeToken` reads
(44_host_composition R155). String equality is equality of the lists of character codes. -/
def verifyLoop (secret presented : List Byte) (stepSeconds : Int) :
    List (Int × ℚ) → State → Option (Bool × State)
  | [], s => some (false, s)
  | (stepOffset, T) :: rest, s => do
    let (code, s) ← s.computeToken secret T stepSeconds stepOffset
    if code = presented then pure (true, s)
    else verifyLoop secret presented stepSeconds rest s

/-- The offsets `-previous, ..., +future`, ascending (44_host_composition R155). -/
def windowOffsets (previous future : Nat) : List Int :=
  (List.range (previous + future + 1)).map fun k : Nat => (k : Int) - previous

/-- `verify(secret, presentedCode, stepSeconds, previous, future)` (44_host_composition R155). `clock` is
the list of times its `computeToken` calls read, one for each offset; 'If buildCounter has no value for
some offset of the window, verify has none either' (assumption 13). -/
def verify (s : State) (secret presented : List Byte) (clock : List ℚ) (stepSeconds : Int := 30)
    (previous future : Nat := 0) : Option (Bool × State) :=
  let calls := (windowOffsets previous future).zip clock
  if clock.length = previous + future + 1 ∧
      calls.all (fun c => (buildCounter c.2 stepSeconds c.1).isSome) = true then
    verifyLoop secret presented stepSeconds calls s
  else none

end State

/-- Why a host function gives no value: the typed failures of 44_host_composition R156 and R157, and a call
outside its domain. -/
inductive HostError where
  /-- the random source is exhausted; 'an error of the host', with no code in STATUS.ERR (60_exceptions
  R197) -/
  | randomSourceUnavailable
  /-- the decode reported code 1 -/
  | invalidEncoding
  /-- the decode reported code 2 -/
  | invalidCharacter
  /-- the call has no value -/
  | refused
  deriving DecidableEq, Repr

namespace State

/-- `generate()`: 20 drawn bytes, `LDKEY; RUN B32ENC; RDTXT` (44_host_composition R156). `drawn` is what
the random source gives, none when it is exhausted. -/
def generate (s : State) (drawn : Option (List Byte)) : Except HostError (List Byte × State) :=
  match drawn with
  | none => .error .randomSourceUnavailable
  | some bytes =>
    if bytes.length = 20 then
      match (s.loadKey bytes).bind (·.runCommand .b32enc) with
      | some t => .ok (t.txtBytes, t)
      | none => .error .refused
    else .error .refused

/-- `decodeSecret(text)`: `LDTXT text; RUN B32DEC`, the error if there is one, else `RDKEY`
(44_host_composition R157). A text longer than TXT_CAP is refused (R157 leaves the host the choice;
assumption 14). -/
def decodeSecret (s : State) (text : List Byte) : Except HostError (List Byte × State) :=
  match (s.loadTxt text).bind (·.runCommand .b32dec) with
  | none => .error .refused
  | some t =>
    match t.err with
    | .none => .ok (t.keyBytes, t)
    | .invalidEncoding => .error .invalidEncoding
    | .invalidCharacter => .error .invalidCharacter
    | .badOperand => .error .refused
    | .illegalCommand => .error .refused

/-- `computeToken` of a secret held as Base32 text: decodeSecret 'in place of LDKEY; an error from the
decode is returned to the caller and no token is computed' (44_host_composition R153). -/
def computeTokenOfText (s : State) (text : List Byte) (T : ℚ) (stepSeconds : Int := 30)
    (stepOffset : Int := 0) : Except HostError (List Byte × State) :=
  match buildCounter T stepSeconds stepOffset with
  | none => .error .refused
  | some counter =>
    match s.decodeSecret text with
    | .error e => .error e
    | .ok (_, t) =>
      match t.tokenOfLoadedKey counter with
      | some r => .ok r
      | none => .error .refused

end State

end Sys2Proof.Machine
end

