-- ==== Sys2Proof/Safety.lean ====
section
/-! DEFINITION. What counts as a good state and as a permitted host action, in the terms the statements
use. -/

namespace Sys2Proof.Machine

/-- The parameters are legal (00_scope R3) and every buffer is in canonical form within its capacity. -/
abbrev State.sound (s : State) : Prop :=
  s.cfg.legal = true ∧ Memory.wf 20 s.digest ∧ Memory.wf s.cfg.keyCap s.keymem ∧
    Memory.wf s.cfg.msgCap s.msgmem ∧ Memory.wf s.cfg.txtCap s.txtmem

/-- While a command is in flight ERR is 0 (20_memory R46) and the busy window is open. -/
abbrev State.busyConsistent (s : State) : Prop :=
  s.busy = true → s.err = .none ∧ s.host.window = true

/-- The invariant of the machine. -/
abbrev State.inv (s : State) : Prop := s.sound ∧ s.busyConsistent

/-- The host may take the action now: RESET and WAIT at any time; a port access of the shape of 20_memory
R41, in the busy window of STATUS for reading only (70_reset_and_hazards R204); RDTXT and RDKEY outside
the window, and each of their byte reads at a byte that exists. -/
def State.permits (s : State) : HostAction → Bool
  | .memRead addr n =>
    (HostAction.memRead addr n).wellShaped s.cfg &&
      (s.portOpen || locate s.cfg addr == some (.reg .status))
  | .memWrite addr n v => (HostAction.memWrite addr n v).wellShaped s.cfg && s.portOpen
  | .reset => true
  | .wait => true
  | .rdTxt => s.portOpen
  | .rdKey => s.portOpen
  | .readBytes b k more => (HostAction.readBytes b k more).wellShaped s.cfg && s.portOpen

/-! ### Which command touches what (10_state R25) -/

/-- The buffer a command stores to and how many bytes from index 0 on (10_state R25, 'writes on success');
none for a command that stores no byte. -/
def State.stored (s : State) : Instr → Option (Buf × Nat)
  | .ctrser => some (.msgmem, 8)
  | .hmac => some (.digest, 20)
  | .doff => none
  | .trunc => none
  | .b32dec => some (.keymem, 5 * s.txtLen.toNat / 8)
  | .b32enc => some (.txtmem, 8 * s.keyLen.toNat / 5)

/-- The register a command writes beside STATUS (10_state R10, 'written by commands'). -/
def writtenReg : Instr → Option Reg
  | .ctrser => some .msgLen
  | .hmac => none
  | .doff => some .offset
  | .trunc => some .trunc
  | .b32dec => some .keyLen
  | .b32enc => some .txtLen

/-- Two states agree on the first n bytes of a buffer. -/
def agreeBytes (s t : State) (b : Buf) (n : Nat) : Prop := ∀ k < n, s.byteAt b k = t.byteAt b k

/-- Two states agree on what a command reads (10_state R25, 'reads'). -/
def readsAgree (i : Instr) (s t : State) : Prop :=
  match i with
  | .ctrser => s.ctrHi = t.ctrHi ∧ s.ctrLo = t.ctrLo
  | .hmac =>
    s.keyLen = t.keyLen ∧ s.msgLen = t.msgLen ∧ agreeBytes s t .keymem s.keyLen.toNat ∧
      agreeBytes s t .msgmem s.msgLen.toNat
  | .doff => s.byteAt .digest 19 = t.byteAt .digest 19
  | .trunc =>
    s.offset = t.offset ∧
      ∀ k < 4, s.byteAt .digest (s.offset.toNat + k) = t.byteAt .digest (s.offset.toNat + k)
  | .b32dec => s.txtLen = t.txtLen ∧ agreeBytes s t .txtmem s.txtLen.toNat
  | .b32enc => s.keyLen = t.keyLen ∧ agreeBytes s t .keymem s.keyLen.toNat

/-- Two states agree on what a command that succeeds writes (10_state R25, 'writes on success'). -/
def writesAgree (i : Instr) (s t : State) : Prop :=
  match i with
  | .ctrser => s.msgLen = t.msgLen ∧ agreeBytes s t .msgmem 8
  | .hmac => agreeBytes s t .digest 20
  | .doff => s.offset = t.offset
  | .trunc => s.trunc = t.trunc
  | .b32dec => s.keyLen = t.keyLen ∧ agreeBytes s t .keymem s.keyLen.toNat
  | .b32enc => s.txtLen = t.txtLen ∧ agreeBytes s t .txtmem s.txtLen.toNat

end Sys2Proof.Machine
end

