-- ==== Sys2Proof/Certificates/Slice0/Obligations.lean ====
section
/-! DEFINITION. The statements about the model, for the provers. Each says which rule of spec/ it rests
on; OBLIGATIONS.json lists them. -/

open Sys2Proof Sys2Proof.Machine

/-! ## Encoding -/

/-- The words of 30_encoding R62, and illegal words of R65 of each kind. -/
def Obligations.EachSpecWordDecodesToItsCommand : Prop :=
  (decode 0x00000001 = .ok .ctrser ∧ decode 0x00000002 = .ok .hmac ∧ decode 0x00000003 = .ok .doff ∧
    decode 0x00000004 = .ok .trunc ∧ decode 0x00000005 = .ok .b32dec ∧ decode 0x00000006 = .ok .b32enc) ∧
  (decode 0x00000000 = .error .unassignedOpcode ∧ decode 0x00000007 = .error .unassignedOpcode ∧
    decode 0x000000FF = .error .unassignedOpcode ∧ decode 0x00000105 = .error .reservedBits ∧
    decode 0x80000001 = .error .reservedBits ∧ decode 0xFFFFFFFF = .error .reservedBits)

/-- 30_encoding R62: 'a word selects a command only when all 32 bits are equal to match', and the match of
each mnemonic. -/
def Obligations.WordSelectsCommandOnlyWhenAllBitsMatch : Prop :=
  (encode .ctrser = 0x00000001 ∧ encode .hmac = 0x00000002 ∧ encode .doff = 0x00000003 ∧
    encode .trunc = 0x00000004 ∧ encode .b32dec = 0x00000005 ∧ encode .b32enc = 0x00000006) ∧
  ∀ (w : Word) (i : Instr), decode w = .ok i ↔ w = encode i

/-- 30_encoding R65: which words are illegal, and why: a non-zero bit of RSV whatever OPC is, or OPC 0x00
or 0x07 to 0xFF. -/
def Obligations.IllegalWordsAreRejectedByKind : Prop :=
  ∀ w : Word,
    (decode w = .error .reservedBits ↔ 0x100 ≤ w.toNat) ∧
    (decode w = .error .unassignedOpcode ↔
      w.toNat < 0x100 ∧ (w.toNat % 0x100 = 0 ∨ 0x07 ≤ w.toNat % 0x100)) ∧
    ((∃ i, decode w = .ok i) ↔ wordWellFormed w = true)

/-! ## One step -/

/-- 30_encoding R64: the completion step of a command in flight is the command that CMD decodes to, and
nothing is added around it; the free delay has run out, or the host has no action left. -/
def Obligations.StepRunsTheDecodedCommand : Prop :=
  (∀ (s : State) (i : Instr), s.busy = true → s.host.delay = 0 ∨ s.host.actions = [] →
    decode s.cmd = .ok i → step s = exec i s) ∧
  (∀ (s : State) (i : Instr) (n : Nat),
    step (s.withFetchWord n (encode i).toNat) = exec i (s.withFetchWord n (encode i).toNat))

/-- 30_encoding R64: while BUSY = 1 the core's step is enabled and takes the command out of flight
whatever word CMD holds, and neither the parameters, CMD nor the host's side is touched. -/
def Obligations.EveryIssuedWordCompletes : Prop :=
  ∀ s : State, s.busy = true → s.host.delay = 0 ∨ s.host.actions = [] →
    ∃ t, step s = .next t ∧ t.busy = false ∧ t.cmd = s.cmd ∧ t.cfg = s.cfg ∧ t.host = s.host

/-- 60_exceptions R182: any word but 0x00000001 to 0x00000006 completes with IllegalCommand, 'No state but
STATUS changes'. When that completion is the machine's step (no host move is left to pass, or the host has
none left) is the model's own schedule (assumption 3, DESIGN CHOICE, and assumption 4, DEDUCED). -/
def Obligations.IllegalWordCompletesWithIllegalCommand : Prop :=
  ∀ s : State, s.cmd.toNat = 0 ∨ 6 < s.cmd.toNat →
    complete s = .next { s with busy := false, err := .illegalCommand } ∧
    (s.busy = true → s.host.delay = 0 ∨ s.host.actions = [] →
      step s = .next { s with busy := false, err := .illegalCommand })

/-! ## The commands -/

/-- 41_counter R100. -/
def Obligations.CtrserSerializesTheCounter : Prop :=
  encode .ctrser = 0x00000001 ∧
  ∀ s : State, s.sound → ∃ t, exec .ctrser s = .next t ∧
    Memory.read t.msgmem 0 = s.ctrHi.extractLsb' 24 8 ∧
    Memory.read t.msgmem 1 = s.ctrHi.extractLsb' 16 8 ∧
    Memory.read t.msgmem 2 = s.ctrHi.extractLsb' 8 8 ∧
    Memory.read t.msgmem 3 = s.ctrHi.extractLsb' 0 8 ∧
    Memory.read t.msgmem 4 = s.ctrLo.extractLsb' 24 8 ∧
    Memory.read t.msgmem 5 = s.ctrLo.extractLsb' 16 8 ∧
    Memory.read t.msgmem 6 = s.ctrLo.extractLsb' 8 8 ∧
    Memory.read t.msgmem 7 = s.ctrLo.extractLsb' 0 8 ∧
    (∀ k, 8 ≤ k → Memory.read t.msgmem k = Memory.read s.msgmem k) ∧
    t = { s with msgmem := t.msgmem, msgLen := 8, busy := false, err := .none }

/-- 41_counter R101: the eight bytes are the counter, and two different counters never give the same
message. -/
def Obligations.CounterBytesDetermineTheCounter : Prop :=
  (∀ s t : State, s.sound → exec .ctrser s = .next t →
    be (Memory.readBytes t.msgmem 0 8) = s.ctrHi.toNat * 2 ^ 32 + s.ctrLo.toNat ∧ t.msgLen = 8) ∧
  (∀ s s' t t' : State, s.sound → s'.sound → exec .ctrser s = .next t → exec .ctrser s' = .next t' →
    Memory.readBytes t.msgmem 0 8 = Memory.readBytes t'.msgmem 0 8 →
    s.ctrHi = s'.ctrHi ∧ s.ctrLo = s'.ctrLo) ∧
  (∀ bytes : List Byte, bytes.length = 8 → ∃ hi lo : Word, ∀ s t : State, s.sound →
    s.ctrHi = hi → s.ctrLo = lo → exec .ctrser s = .next t → Memory.readBytes t.msgmem 0 8 = bytes)

/-- 42_hmac_sha1 R118. -/
def Obligations.HmacWritesTheDigest : Prop :=
  encode .hmac = 0x00000002 ∧
  ∀ s : State, s.sound →
    (s.keyLen.toNat ≤ s.cfg.keyCap → s.msgLen.toNat ≤ s.cfg.msgCap →
      ∃ t, exec .hmac s = .next t ∧
        Memory.readBytes t.digest 0 20 =
          hmacSha1 (Memory.readBytes s.keymem 0 s.keyLen.toNat)
            (Memory.readBytes s.msgmem 0 s.msgLen.toNat) ∧
        (∀ k, 20 ≤ k → Memory.read t.digest k = Memory.read s.digest k) ∧
        t = { s with digest := t.digest, busy := false, err := .none }) ∧
    (s.cfg.keyCap < s.keyLen.toNat ∨ s.cfg.msgCap < s.msgLen.toNat →
      exec .hmac s = .next { s with busy := false, err := .badOperand })

/-- 43_truncation R140. -/
def Obligations.DoffTakesTheLowFourBits : Prop :=
  encode .doff = 0x00000003 ∧
  ∀ s : State, ∃ t, exec .doff s = .next t ∧
    t.offset.toNat = (Memory.read s.digest 19).toNat % 16 ∧
    t = { s with offset := t.offset, busy := false, err := .none }

/-- 43_truncation R141. -/
def Obligations.TruncAssemblesTheWindow : Prop :=
  encode .trunc = 0x00000004 ∧
  ∀ s : State, ∃ t, exec .trunc s = .next t ∧
    t.trunc.toNat = (Memory.read s.digest s.offset.toNat).toNat % 2 ^ 7 * 2 ^ 24 +
      (Memory.read s.digest (s.offset.toNat + 1)).toNat * 2 ^ 16 +
      (Memory.read s.digest (s.offset.toNat + 2)).toNat * 2 ^ 8 +
      (Memory.read s.digest (s.offset.toNat + 3)).toNat ∧
    t.trunc.toNat = be (Memory.readBytes s.digest s.offset.toNat 4) % 2 ^ 31 ∧
    s.offset.toNat + 3 < 19 ∧
    t = { s with trunc := t.trunc, busy := false, err := .none }

/-- 40_base32 R82: the three checks in their order, and the groups. -/
def Obligations.B32decDecodesTheText : Prop :=
  encode .b32dec = 0x00000005 ∧
  ∀ s : State, s.sound →
    (s.cfg.txtCap < s.txtLen.toNat →
      exec .b32dec s = .next { s with busy := false, err := .badOperand }) ∧
    (s.txtLen.toNat ≤ s.cfg.txtCap → s.txtLen.toNat % 8 ≠ 0 →
      exec .b32dec s = .next { s with busy := false, err := .invalidEncoding }) ∧
    (s.txtLen.toNat ≤ s.cfg.txtCap → s.txtLen.toNat % 8 = 0 →
      (∃ k < s.txtLen.toNat, b32val (Memory.read s.txtmem k) = none) →
      exec .b32dec s = .next { s with busy := false, err := .invalidCharacter }) ∧
    (s.txtLen.toNat ≤ s.cfg.txtCap → s.txtLen.toNat % 8 = 0 →
      (∀ k < s.txtLen.toNat, b32val (Memory.read s.txtmem k) ≠ none) →
      ∃ t, exec .b32dec s = .next t ∧
        t.keyLen.toNat = 5 * s.txtLen.toNat / 8 ∧
        (∀ g < s.txtLen.toNat / 8, ∃ v : Fin 8 → BitVec 5,
          (∀ j : Fin 8, b32val (Memory.read s.txtmem (8 * g + j)) = some (v j)) ∧
          Memory.readBytes t.keymem (5 * g) 5 =
            toBe (∑ j : Fin 8, (v j).toNat * 2 ^ (35 - 5 * (j : Nat))) 5) ∧
        (∀ k, 5 * s.txtLen.toNat / 8 ≤ k → Memory.read t.keymem k = Memory.read s.keymem k) ∧
        t = { s with keymem := t.keymem, keyLen := t.keyLen, busy := false, err := .none })

/-- 40_base32 R86: the two checks, and the groups. -/
def Obligations.B32encEncodesTheKey : Prop :=
  encode .b32enc = 0x00000006 ∧
  ∀ s : State, s.sound →
    (s.cfg.keyCap < s.keyLen.toNat ∨ s.keyLen.toNat % 5 ≠ 0 →
      exec .b32enc s = .next { s with busy := false, err := .badOperand }) ∧
    (s.keyLen.toNat ≤ s.cfg.keyCap → s.keyLen.toNat % 5 = 0 →
      ∃ t, exec .b32enc s = .next t ∧
        t.txtLen.toNat = 8 * s.keyLen.toNat / 5 ∧
        (∀ g < s.keyLen.toNat / 5, ∀ j < 8,
          Memory.read t.txtmem (8 * g + j) =
            b32char (BitVec.ofNat 5 (be (Memory.readBytes s.keymem (5 * g) 5) / 2 ^ (35 - 5 * j)))) ∧
        (∀ k, 8 * s.keyLen.toNat / 5 ≤ k → Memory.read t.txtmem k = Memory.read s.txtmem k) ∧
        t = { s with txtmem := t.txtmem, txtLen := t.txtLen, busy := false, err := .none })

/-! ## What every command has in common -/

/-- 60_exceptions R183: a completion that reports an error, of a command or of an illegal word, writes
STATUS and nothing else. -/
def Obligations.ErrorsWriteNothingButStatus : Prop :=
  (∀ (i : Instr) (s t : State), exec i s = .next t → t.err ≠ .none →
    t = { s with busy := false, err := t.err }) ∧
  (∀ s t : State, complete s = .next t → t.err ≠ .none → t = { s with busy := false, err := t.err })

/-- 60_exceptions R181, R184 and R185: which command raises which error, exactly when; and R182 for the
illegal words. -/
def Obligations.ErrorsAreRaisedExactlyWhenTheRulesSay : Prop :=
  (∀ (i : Instr) (s t : State), exec i s = .next t →
    (t.err = .badOperand ↔
      (i = .hmac ∧ (s.cfg.keyCap < s.keyLen.toNat ∨ s.cfg.msgCap < s.msgLen.toNat)) ∨
      (i = .b32dec ∧ s.cfg.txtCap < s.txtLen.toNat) ∨
      (i = .b32enc ∧ (s.cfg.keyCap < s.keyLen.toNat ∨ s.keyLen.toNat % 5 ≠ 0))) ∧
    (t.err = .invalidEncoding ↔
      i = .b32dec ∧ s.txtLen.toNat ≤ s.cfg.txtCap ∧ s.txtLen.toNat % 8 ≠ 0) ∧
    (t.err = .invalidCharacter ↔
      i = .b32dec ∧ s.txtLen.toNat ≤ s.cfg.txtCap ∧ s.txtLen.toNat % 8 = 0 ∧
        ∃ k < s.txtLen.toNat, b32val (Memory.read s.txtmem k) = none) ∧
    t.err ≠ .illegalCommand) ∧
  (∀ s t : State, complete s = .next t →
    (t.err = .illegalCommand ↔ s.cmd.toNat = 0 ∨ 6 < s.cmd.toNat))

/-- 10_state R25, the column of writes: the frame of every command, with the bytes it stores computed by
`State.stored`. -/
def Obligations.CommandsWriteOnlyTheirDestinations : Prop :=
  ∀ (i : Instr) (s t : State), exec i s = .next t →
    t.busy = false ∧ t.cfg = s.cfg ∧ t.cmd = s.cmd ∧ t.ctrHi = s.ctrHi ∧ t.ctrLo = s.ctrLo ∧
    t.host = s.host ∧
    (∀ r : Reg, r ≠ .status → writtenReg i ≠ some r → t.readReg r = s.readReg r) ∧
    (∀ (b : Buf) (k : Nat), (∀ n, s.stored i = some (b, n) → n ≤ k) → t.byteAt b k = s.byteAt b k)

/-- 10_state R30 and R25, the column of reads: what a command reports and writes depends on nothing but
what it reads (and the parameters). -/
def Obligations.CommandsDependOnlyOnWhatTheyRead : Prop :=
  ∀ (i : Instr) (s₁ s₂ t₁ t₂ : State), s₁.sound → s₂.sound → s₁.cfg = s₂.cfg → readsAgree i s₁ s₂ →
    exec i s₁ = .next t₁ → exec i s₂ = .next t₂ →
    t₁.err = t₂.err ∧ (t₁.err = .none → writesAgree i t₁ t₂)

/-- 45_common_semantics R166: 'a second RUN m with no host write between leaves the state as the first
did'. -/
def Obligations.CommandsAreIdempotent : Prop :=
  ∀ (i : Instr) (s t : State), s.sound → s.runCommand i = some t → t.runCommand i = some t

/-! ## Issue, the busy window and the port -/

/-- 30_encoding R63: a write to CMD while the port is open. -/
def Obligations.WriteToCmdIssuesACommand : Prop :=
  ∀ (s : State) (v : Word) (rest : List HostAction), s.portOpen = true →
    s.host.actions = .memWrite 0x000 4 v :: rest →
    ∃ t, step s = .next t ∧ t = { s with cmd := v, busy := true, err := .none, host := t.host } ∧
      t.host.actions = rest ∧ t.host.reads = s.host.reads ∧ t.host.window = true

/-- 10_state R23 and R24, 60_exceptions R187: BUSY is set by a write to CMD and cleared by completion and by
reset, and nothing else changes it; ERR is cleared by a write to CMD and by reset and written at
completion, and else keeps its code. -/
def Obligations.BusyIsSetByIssueAndClearedByCompletionOrReset : Prop :=
  ∀ s t : State, step s = .next t →
    (s.busy = false → t.busy = true →
      ∃ v rest, s.host.actions = .memWrite 0x000 4 v :: rest ∧ t.cmd = v) ∧
    (s.busy = true → t.busy = false →
      complete s = .next t ∨ ∃ rest, s.host.actions = .reset :: rest) ∧
    (t.err ≠ s.err →
      (s.busy = true ∧ t.busy = false ∧ complete s = .next t) ∨
      (t.err = .none ∧ t.busy = true ∧
        ∃ v rest, s.host.actions = .memWrite 0x000 4 v :: rest ∧ t.cmd = v) ∨
      (t.err = .none ∧ t.busy = false ∧ ∃ rest, s.host.actions = .reset :: rest))

/-- 70_reset_and_hazards R204: in the busy window every access but a STATUS read is refused, those of RDTXT
and RDKEY among them, and a STATUS read, a WAIT and a reset are not. How long the window stays open is read
from R204 (assumption 6, DEDUCED). -/
def Obligations.BusyWindowRefusesAllButStatusReads : Prop :=
  ∀ (s : State) (a : HostAction) (rest : List HostAction), s.busy = true ∨ s.host.window = true →
    s.coreMoves = false → s.host.actions = a :: rest → a.wellShaped s.cfg = true →
    (∀ addr n, a = .memRead addr n → addr ≠ 0x004 → step s = .refused .accessInBusyWindow) ∧
    (∀ addr n v, a = .memWrite addr n v → step s = .refused .accessInBusyWindow) ∧
    (a = .rdTxt ∨ a = .rdKey ∨ (∃ b k more, a = .readBytes b k more) →
      step s = .refused .accessInBusyWindow) ∧
    (a = .memRead 0x004 4 ∨ a = .wait ∨ a = .reset → ∃ t, step s = .next t)

/-- 10_state R12 and 20_memory R46: a read of STATUS, at any time, returns BUSY in bit 0, ERR in bits 10:8
and zeros, and changes nothing of the core; in a state of the machine it returns 1 while BUSY = 1. -/
def Obligations.StatusReadReturnsErrAndBusy : Prop :=
  ∀ (s : State) (rest : List HostAction), s.coreMoves = false →
    s.host.actions = .memRead 0x004 4 :: rest →
    ∃ t w, step s = .next t ∧ t = { s with host := t.host } ∧ t.host.actions = rest ∧
      t.host.reads = s.host.reads ++ [.word w] ∧
      w.getLsbD 0 = s.busy ∧ w.extractLsb' 8 3 = s.err.code ∧ w.extractLsb' 1 7 = 0 ∧
      w.extractLsb' 11 21 = 0 ∧
      (s.inv → s.busy = true → w = 1) ∧
      (t.host.window = true ↔ s.busy = true ∧ s.host.window = true)

/-- 20_memory R42 and R43: a register written and read back, for every register but CMD, whose write
issues a command. -/
def Obligations.RegisterWriteThenRead : Prop :=
  ∀ (s : State) (r : Reg) (v : Word) (rest : List HostAction), s.portOpen = true → r ≠ .cmd →
    s.host.actions = .memWrite (4 * r.index) 4 v :: .memRead (4 * r.index) 4 :: rest →
    ∃ t u, step s = .next t ∧ step t = .next u ∧ u = { t with host := u.host } ∧
      u.host.actions = rest ∧
      u.host.reads = s.host.reads ++ [.word (match r with
        | .status => s.status
        | .trunc => s.trunc.setWidth 32
        | .offset => v &&& 0xF
        | _ => v)] ∧
      (∀ r' : Reg, r' ≠ r → t.readReg r' = s.readReg r') ∧
      (∀ (b : Buf) (k : Nat), t.byteAt b k = s.byteAt b k)

/-- 20_memory R44: a buffer byte written and read back, for every byte of every buffer; no other byte and
no register changes. -/
def Obligations.ByteWriteThenRead : Prop :=
  ∀ (s : State) (b : Buf) (k : Nat) (v : Word) (rest : List HostAction), s.sound → s.portOpen = true →
    k < b.cap s.cfg →
    s.host.actions = .memWrite (b.base s.cfg + k) 1 v :: .memRead (b.base s.cfg + k) 1 :: rest →
    ∃ t u, step s = .next t ∧ step t = .next u ∧ u = { t with host := u.host } ∧
      u.host.actions = rest ∧ u.host.reads = s.host.reads ++ [.byte (v.extractLsb' 0 8)] ∧
      (∀ r : Reg, t.readReg r = s.readReg r) ∧
      (∀ (b' : Buf) (k' : Nat), b' ≠ b ∨ k' ≠ k → t.byteAt b' k' = s.byteAt b' k')

/-- 20_memory R47: the map for the default parameters, range by range. -/
def Obligations.DefaultMapIsTheTable : Prop :=
  (∀ r : Reg, locate Config.default (4 * r.index) = some (.reg r)) ∧
  (∀ k < 20, locate Config.default (0x040 + k) = some (.byte .digest k)) ∧
  (∀ k < 160, locate Config.default (0x100 + k) = some (.byte .keymem k)) ∧
  (∀ k < 256, locate Config.default (0x200 + k) = some (.byte .msgmem k)) ∧
  (∀ k < 256, locate Config.default (0x300 + k) = some (.byte .txtmem k)) ∧
  (∀ addr, (0x024 ≤ addr ∧ addr ≤ 0x03F) ∨ (0x054 ≤ addr ∧ addr ≤ 0x0FF) ∨
    (0x1A0 ≤ addr ∧ addr ≤ 0x1FF) ∨ 0x400 ≤ addr → locate Config.default addr = none)

/-- 20_memory R41, R47: for all legal parameters, the locations that exist and the offsets of the map
correspond one to one. -/
def Obligations.LocationsAndOffsetsCorrespond : Prop :=
  ∀ c : Config, c.legal = true →
    (∀ l : Loc, l.exists c = true → locate c (l.offset c) = some l) ∧
    (∀ (addr : Nat) (l : Loc), locate c addr = some l → l.exists c = true ∧ l.offset c = addr)

/-- 20_memory R41, R45: an access of another shape is refused. By which of its two names is the model's
choice (assumption 7, DESIGN CHOICE). -/
def Obligations.AccessesOfAnotherShapeStop : Prop :=
  ∀ (s : State) (a : HostAction) (addr n : Nat) (rest : List HostAction), s.cfg.legal = true →
    s.coreMoves = false → s.host.actions = a :: rest → (a = .memRead addr n ∨ ∃ v, a = .memWrite addr n v) →
    a.wellShaped s.cfg = false →
    (0x024 ≤ addr → (∀ (b : Buf) (k : Nat), k < b.cap s.cfg → addr ≠ b.base s.cfg + k) →
      step s = .refused (.unassignedOffset addr)) ∧
    (addr < 0x024 ∨ (∃ (b : Buf) (k : Nat), k < b.cap s.cfg ∧ addr = b.base s.cfg + k) →
      step s = .refused (.noSuchAccess addr n))

/-- 00_scope R5: while it is the host's turn a step stops exactly when the host's next action is one the
interface does not have; the core's turn never stops. Four clauses of it are the model's: an ended run
stands still (assumption 5, DESIGN CHOICE), the busy window outlasts BUSY = 1 (assumption 6, DEDUCED), a
RDTXT or RDKEY stops only at a byte its buffer does not have (assumption 17, DEDUCED), and when the core
moves (assumptions 3, DESIGN CHOICE, and 4, DEDUCED). -/
def Obligations.StepStopsExactlyOnForbiddenActions : Prop :=
  ∀ s : State,
    (s.coreMoves = true → ∃ t, step s = .next t) ∧
    (s.coreMoves = false →
      ((∃ t, step s = .next t) ↔ ∀ a ∈ s.host.actions.head?, s.permits a = true))

/-- 70_reset_and_hazards R200, R201: a reset, in every state in which the host moves, a command in flight
or not. -/
def Obligations.ResetClearsEveryBit : Prop :=
  ∀ (s : State) (rest : List HostAction), s.coreMoves = false → s.host.actions = .reset :: rest →
    ∃ t, step s = .next t ∧ t.busy = false ∧ t.err = .none ∧
      (∀ r : Reg, t.readReg r = 0) ∧ (∀ (b : Buf) (k : Nat), t.byteAt b k = 0) ∧
      t.cfg = s.cfg ∧ t.host.actions = rest ∧ t.host.reads = s.host.reads ∧ t.host.window = false

/-- 10_state R26: 'After reset every bit of state is zero'. -/
def Obligations.ResetStateIsZero : Prop :=
  State.reset.cmd = 0 ∧ State.reset.busy = false ∧ State.reset.err = .none ∧ State.reset.status = 0 ∧
    State.reset.ctrHi = 0 ∧ State.reset.ctrLo = 0 ∧ State.reset.keyLen = 0 ∧ State.reset.msgLen = 0 ∧
    State.reset.txtLen = 0 ∧ State.reset.offset = 0 ∧ State.reset.trunc = 0 ∧
    ∀ (b : Buf) (k : Nat), State.reset.byteAt b k = 0

/-! ## The whole machine -/

/-- The invariant: legal parameters, canonical buffers within their capacities, and ERR = 0 with an open
window while BUSY = 1. -/
def Obligations.StepKeepsTheInvariant : Prop :=
  ∀ s t : State, s.inv → step s = .next t → t.inv

/-- The invariant holds after reset (with the model's own reset values of the parameters and the host's
side, assumptions 1 and 2). -/
def Obligations.ResetMeetsTheInvariant : Prop := State.reset.inv

/-- 00_scope R3: the parameters are arguments of the model, so no step changes them (assumption 1). -/
def Obligations.ParametersNeverChange : Prop :=
  ∀ s t : State, step s = .next t → t.cfg = s.cfg

/-- 20_memory R52 (c) and 10_state R25 for bytes: a byte changes only by the completion of a command that
stores to it, by the host's write of that byte while the port is open (70_reset_and_hazards R204: outside the
busy window, assumption 6, DEDUCED), or by reset. -/
def Obligations.BytesChangeOnlyByTheirWriters : Prop :=
  ∀ (s t : State) (b : Buf) (k : Nat), s.sound → step s = .next t → t.byteAt b k ≠ s.byteAt b k →
    (∃ i n, s.busy = true ∧ s.cmd = encode i ∧ exec i s = .next t ∧ s.stored i = some (b, n) ∧ k < n) ∨
    (∃ v rest, s.host.actions = .memWrite (b.base s.cfg + k) 1 v :: rest ∧ s.portOpen = true ∧
      t.byteAt b k = v.extractLsb' 0 8) ∨
    (∃ rest, s.host.actions = .reset :: rest ∧ t.byteAt b k = 0)

/-- 10_state R10, its columns of host access and of writers, R21, R12 and R24: a register other than STATUS
changes only by the command that writes it, by the host's write of it while the port is open
(70_reset_and_hazards R204: outside the busy window, assumption 6, DEDUCED), or by reset; STATUS only by an
issue, by a completion or by reset. -/
def Obligations.RegistersChangeOnlyByTheirWriters : Prop :=
  (∀ (s t : State) (r : Reg), r ≠ .status → step s = .next t → t.readReg r ≠ s.readReg r →
    (∃ i, s.busy = true ∧ s.cmd = encode i ∧ exec i s = .next t ∧ writtenReg i = some r) ∨
    (∃ v rest, r ≠ .trunc ∧ s.host.actions = .memWrite (4 * r.index) 4 v :: rest ∧
      s.portOpen = true) ∨
    (∃ rest, s.host.actions = .reset :: rest ∧ t.readReg r = 0)) ∧
  (∀ s t : State, step s = .next t → t.readReg .status ≠ s.readReg .status →
    (s.busy = true ∧ complete s = .next t ∧ t.readReg .status = t.err.code.setWidth 32 <<< 8) ∨
    (∃ v rest, s.host.actions = .memWrite 0x000 4 v :: rest ∧ s.portOpen = true ∧
      t.readReg .status = 1) ∨
    (∃ rest, s.host.actions = .reset :: rest ∧ t.readReg .status = 0))

/-- 30_encoding R70: `RUN m` is the command's own function on the state, for every number of STATUS reads
the core lets pass (a free value, assumption 3, DESIGN CHOICE), and its last read returns STATUS after it
(R69; each STATUS read of WAIT is a step and is recorded, assumption 19, DEDUCED). -/
def Obligations.RunIsOneAtomicAction : Prop :=
  ∀ (s : State) (i : Instr) (rest : List HostAction), s.portOpen = true →
    s.host.actions = HostAction.run i ++ rest →
    ∃ t u : State, s.runCommand i = some t ∧
      Sys2Proof.core.run (Config.completionDelay s.host.issues + 3) s = .next u ∧
      u = { t with host := u.host } ∧ u.host.actions = rest ∧ u.portOpen = true ∧
      u.host.reads = s.host.reads ++
        List.replicate (Config.completionDelay s.host.issues) (.word 1) ++ [.word t.status]

/-- 30_encoding R69: the actions of `LDKEY s`, `LDMSG s`, `LDTXT s`, `LDDIG s` and `LDCTR v` put the bytes
of s and its length, or the halves of v, where they belong, and nothing else; and the loads that the host's
functions make are these. -/
def Obligations.LoadKeyActionsLoadTheKey : Prop :=
  ∀ (s : State) (bytes : List Byte) (v : BitVec 64) (acts rest : List HostAction), s.sound →
    s.portOpen = true → s.host.actions = acts ++ rest →
    (HostAction.ldKey s.cfg bytes = some acts →
      ∃ t : State, Sys2Proof.core.run (bytes.length + 1) s = .next t ∧
        Memory.readBytes t.keymem 0 bytes.length = bytes ∧
        (∀ k, bytes.length ≤ k → Memory.read t.keymem k = Memory.read s.keymem k) ∧
        t.keyLen.toNat = bytes.length ∧
        t = { s with keymem := t.keymem, keyLen := t.keyLen, host := t.host } ∧
        t.host.actions = rest ∧ t.host.reads = s.host.reads ∧ t.portOpen = true ∧
        s.loadKey bytes = some { t with host := s.host }) ∧
    (HostAction.ldMsg s.cfg bytes = some acts →
      ∃ t : State, Sys2Proof.core.run (bytes.length + 1) s = .next t ∧
        Memory.readBytes t.msgmem 0 bytes.length = bytes ∧
        (∀ k, bytes.length ≤ k → Memory.read t.msgmem k = Memory.read s.msgmem k) ∧
        t.msgLen.toNat = bytes.length ∧
        t = { s with msgmem := t.msgmem, msgLen := t.msgLen, host := t.host } ∧
        t.host.actions = rest ∧ t.host.reads = s.host.reads ∧ t.portOpen = true) ∧
    (HostAction.ldTxt s.cfg bytes = some acts →
      ∃ t : State, Sys2Proof.core.run (bytes.length + 1) s = .next t ∧
        Memory.readBytes t.txtmem 0 bytes.length = bytes ∧
        (∀ k, bytes.length ≤ k → Memory.read t.txtmem k = Memory.read s.txtmem k) ∧
        t.txtLen.toNat = bytes.length ∧
        t = { s with txtmem := t.txtmem, txtLen := t.txtLen, host := t.host } ∧
        t.host.actions = rest ∧ t.host.reads = s.host.reads ∧ t.portOpen = true ∧
        s.loadTxt bytes = some { t with host := s.host }) ∧
    (HostAction.ldDig s.cfg bytes = some acts →
      ∃ t : State, Sys2Proof.core.run 20 s = .next t ∧
        Memory.readBytes t.digest 0 20 = bytes ∧
        t = { s with digest := t.digest, host := t.host } ∧
        t.host.actions = rest ∧ t.host.reads = s.host.reads ∧ t.portOpen = true) ∧
    (HostAction.ldCtr v = acts →
      ∃ t : State, Sys2Proof.core.run 2 s = .next t ∧
        t.ctrHi.toNat = v.toNat / 2 ^ 32 ∧ t.ctrLo.toNat = v.toNat % 2 ^ 32 ∧
        t = { s with ctrHi := t.ctrHi, ctrLo := t.ctrLo, host := t.host } ∧
        t.host.actions = rest ∧ t.host.reads = s.host.reads ∧ t.portOpen = true ∧
        s.loadCtr v = some { t with host := s.host })

/-- 20_memory R42, 10_state R11 to R17 and R21: the value a read of each register returns, and that it
changes nothing of the core; and a word written to CMD is read back once WAIT has seen BUSY = 0
(30_encoding R69). Nothing says how many reads WAIT makes (assumption 3, DESIGN CHOICE); each is recorded
(assumption 19, DEDUCED). -/
def Obligations.RegisterReadsReturnTheirValues : Prop :=
  (∀ (s : State) (r : Reg) (rest : List HostAction), s.portOpen = true →
    s.host.actions = .memRead (4 * r.index) 4 :: rest →
    ∃ (t : State) (w : Word), step s = .next t ∧ t = { s with host := t.host } ∧ t.host.actions = rest ∧
      t.host.reads = s.host.reads ++ [.word w] ∧ t.portOpen = true ∧
      w.toNat = match r with
        | .cmd => s.cmd.toNat
        | .status => s.err.code.toNat * 2 ^ 8
        | .ctrHi => s.ctrHi.toNat
        | .ctrLo => s.ctrLo.toNat
        | .keyLen => s.keyLen.toNat
        | .msgLen => s.msgLen.toNat
        | .txtLen => s.txtLen.toNat
        | .offset => s.offset.toNat
        | .trunc => s.trunc.toNat) ∧
  (∀ (s : State) (v : Word) (rest : List HostAction), s.portOpen = true →
    s.host.actions = .memWrite 0x000 4 v :: .wait :: .memRead 0x000 4 :: rest →
    ∃ (t : State) (w : Word),
      Sys2Proof.core.run (Config.completionDelay s.host.issues + 4) s = .next t ∧
      t.host.actions = rest ∧ t.portOpen = true ∧ t.cmd = v ∧ w.getLsbD 0 = false ∧
      t.host.reads = s.host.reads ++ List.replicate (Config.completionDelay s.host.issues) (.word 1) ++
        [.word w, .word v])

/-- 30_encoding R69: what `RDDIG`, `RDTXT` and `RDKEY` read, and that they change nothing of the core. Where
the length register exceeds the buffer, RDTXT and RDKEY read the register and every byte there is, and the
first byte there is not is refused (20_memory R45; assumption 17, DEDUCED). -/
def Obligations.ReadActionsRecordTheBytes : Prop :=
  ∀ (s : State) (rest : List HostAction), s.sound → s.portOpen = true →
    (s.host.actions = HostAction.rdDig s.cfg ++ rest →
      ∃ t : State, Sys2Proof.core.run 20 s = .next t ∧ t = { s with host := t.host } ∧
        t.host.actions = rest ∧ t.portOpen = true ∧
        t.host.reads = s.host.reads ++ (Memory.readBytes s.digest 0 20).map PortValue.byte) ∧
    (s.host.actions = .rdTxt :: rest →
      (s.txtLen.toNat ≤ s.cfg.txtCap →
        ∃ t : State, Sys2Proof.core.run (s.txtLen.toNat + 1) s = .next t ∧ t = { s with host := t.host } ∧
          t.host.actions = rest ∧ t.portOpen = true ∧
          t.host.reads = s.host.reads ++ .word s.txtLen :: s.txtBytes.map PortValue.byte) ∧
      (s.cfg.txtCap < s.txtLen.toNat →
        ∃ t : State, Sys2Proof.core.run (s.cfg.txtCap + 1) s = .next t ∧ t = { s with host := t.host } ∧
          t.host.reads = s.host.reads ++
            .word s.txtLen :: (Memory.readBytes s.txtmem 0 s.cfg.txtCap).map PortValue.byte ∧
          step t = .refused (.noSuchByte .txtmem s.cfg.txtCap))) ∧
    (s.host.actions = .rdKey :: rest →
      (s.keyLen.toNat ≤ s.cfg.keyCap →
        ∃ t : State, Sys2Proof.core.run (s.keyLen.toNat + 1) s = .next t ∧ t = { s with host := t.host } ∧
          t.host.actions = rest ∧ t.portOpen = true ∧
          t.host.reads = s.host.reads ++ .word s.keyLen :: s.keyBytes.map PortValue.byte) ∧
      (s.cfg.keyCap < s.keyLen.toNat →
        ∃ t : State, Sys2Proof.core.run (s.cfg.keyCap + 1) s = .next t ∧ t = { s with host := t.host } ∧
          t.host.reads = s.host.reads ++
            .word s.keyLen :: (Memory.readBytes s.keymem 0 s.cfg.keyCap).map PortValue.byte ∧
          step t = .refused (.noSuchByte .keymem s.cfg.keyCap)))

/-! ## Base32 -/

/-- 40_base32 R80. -/
def Obligations.AlphabetIsTheTable : Prop :=
  (List.range 32).map (fun v => b32char (BitVec.ofNat 5 v)) =
    [0x41, 0x42, 0x43, 0x44, 0x45, 0x46, 0x47, 0x48, 0x49, 0x4A, 0x4B, 0x4C, 0x4D, 0x4E, 0x4F, 0x50,
      0x51, 0x52, 0x53, 0x54, 0x55, 0x56, 0x57, 0x58, 0x59, 0x5A, 0x32, 0x33, 0x34, 0x35, 0x36, 0x37] ∧
  (∀ v : BitVec 5, b32val (b32char v) = some v) ∧
  (∀ c : Byte, b32val c = none ↔
    ¬(0x41 ≤ c.toNat ∧ c.toNat ≤ 0x5A) ∧ ¬(0x32 ≤ c.toNat ∧ c.toNat ≤ 0x37))

/-- 40_base32 R81: the bytes of a group spelled out, and the two directions inverse to each other. -/
def Obligations.GroupsAreInverseBijections : Prop :=
  (∀ v₀ v₁ v₂ v₃ v₄ v₅ v₆ v₇ : BitVec 5,
    (decodeGroup [v₀, v₁, v₂, v₃, v₄, v₅, v₆, v₇]).map BitVec.toNat =
      [v₀.toNat * 8 + v₁.toNat / 4, v₁.toNat % 4 * 64 + v₂.toNat * 2 + v₃.toNat / 16,
        v₃.toNat % 16 * 16 + v₄.toNat / 2, v₄.toNat % 2 * 128 + v₅.toNat * 4 + v₆.toNat / 8,
        v₆.toNat % 8 * 32 + v₇.toNat]) ∧
  (∀ b : List Byte, b.length = 5 → (textValues (encodeGroup b)).map decodeGroup = some b) ∧
  (∀ (c : List Byte) (v : List (BitVec 5)), c.length = 8 → textValues c = some v →
    encodeGroup (decodeGroup v) = c)

/-- 40_base32 R87. -/
def Obligations.DecodeAfterEncodeRestoresTheKey : Prop :=
  ∀ s : State, s.sound → s.portOpen = true → s.keyLen.toNat ≤ s.cfg.keyCap → s.keyLen.toNat % 5 = 0 →
    ∃ t u, s.runCommand .b32enc = some t ∧ t.runCommand .b32dec = some u ∧ t.err = .none ∧
      u.err = .none ∧ u.keyLen = s.keyLen ∧
      ∀ k < s.keyLen.toNat, Memory.read u.keymem k = Memory.read s.keymem k

/-- 40_base32 R88: the round trip from a text, and that the decoder accepts every text the encoder
produces. -/
def Obligations.EncodeAfterDecodeRestoresTheText : Prop :=
  (∀ s t : State, s.sound → s.runCommand .b32dec = some t → t.err = .none →
    ∃ u, t.runCommand .b32enc = some u ∧ u.err = .none ∧ u.txtLen = s.txtLen ∧
      ∀ k < s.txtLen.toNat, Memory.read u.txtmem k = Memory.read s.txtmem k) ∧
  (∀ s t : State, s.sound → s.runCommand .b32enc = some t → t.err = .none →
    ∃ u, t.runCommand .b32dec = some u ∧ u.err = .none)

/-! ## SHA-1 and HMAC -/

/-- 42_hmac_sha1 R111. -/
def Obligations.PaddingFillsWholeBlocks : Prop :=
  ∀ m : List Byte,
    ∃ z : Nat, (z : Int) = (55 - (m.length : Int)) % 64 ∧
      Sha1.pad m = m ++ 0x80#8 :: (List.replicate z 0#8 ++ toBe (8 * m.length) 8) ∧
      (m.length + 1 + z + 8) % 64 = 0 ∧ (∀ z', (m.length + 1 + z' + 8) % 64 = 0 → z ≤ z') ∧
      (Sha1.pad m).length = 64 * ((m.length + 8) / 64 + 1)

/-- 42_hmac_sha1 R112 and R113: the 80 words of a block. -/
def Obligations.ScheduleFollowsItsRecurrence : Prop :=
  ∀ block : List Byte, block.length = 64 →
    let w := Sha1.schedule (Sha1.wordsOf 16 block)
    w.length = 80 ∧
    (∀ t < 16, w.getD t 0 = BitVec.ofNat 32 (be ((block.drop (4 * t)).take 4))) ∧
    (∀ t, 16 ≤ t → t < 80 →
      w.getD t 0 = (w.getD (t - 3) 0 ^^^ w.getD (t - 8) 0 ^^^ w.getD (t - 14) 0 ^^^
        w.getD (t - 16) 0).rotateLeft 1)

/-- 42_hmac_sha1 R114 and R115: the 80 rounds and the addition at the end. -/
def Obligations.CompressionFollowsItsRounds : Prop :=
  ∀ (h : Sha1.Hash) (block : List Byte), block.length = 64 →
    ∃ v : Nat → Sha1.Hash, v 0 = h ∧
      (∀ t < 80,
        let f : Word :=
          if t ≤ 19 then ((v t).b &&& (v t).c) ||| (~~~(v t).b &&& (v t).d)
          else if t ≤ 39 then (v t).b ^^^ (v t).c ^^^ (v t).d
          else if t ≤ 59 then ((v t).b &&& (v t).c) ||| ((v t).b &&& (v t).d) ||| ((v t).c &&& (v t).d)
          else (v t).b ^^^ (v t).c ^^^ (v t).d
        let k : Word :=
          if t ≤ 19 then 0x5A827999 else if t ≤ 39 then 0x6ED9EBA1
          else if t ≤ 59 then 0x8F1BBCDC else 0xCA62C1D6
        v (t + 1) =
          { a := (v t).a.rotateLeft 5 + f + (v t).e + k +
              (Sha1.schedule (Sha1.wordsOf 16 block)).getD t 0
            b := (v t).a
            c := (v t).b.rotateLeft 30
            d := (v t).c
            e := (v t).d }) ∧
      Sha1.compress h block =
        { a := h.a + (v 80).a, b := h.b + (v 80).b, c := h.c + (v 80).c, d := h.d + (v 80).d,
          e := h.e + (v 80).e }

/-- 42_hmac_sha1 R110, R112 and R116: the blocks of the padded message in order, from the initial hash
value to the 20 bytes of the last. -/
def Obligations.Sha1ChainsItsBlocks : Prop :=
  ∀ m : List Byte, ∃ h : Nat → Sha1.Hash,
    h 0 = ⟨0x67452301, 0xEFCDAB89, 0x98BADCFE, 0x10325476, 0xC3D2E1F0⟩ ∧
    (∀ i < (Sha1.pad m).length / 64,
      h (i + 1) = Sha1.compress (h i) (((Sha1.pad m).drop (64 * i)).take 64)) ∧
    (let l := h ((Sha1.pad m).length / 64)
     sha1 m = toBe l.a.toNat 4 ++ toBe l.b.toNat 4 ++ toBe l.c.toNat 4 ++ toBe l.d.toNat 4 ++
       toBe l.e.toNat 4) ∧
    (sha1 m).length = 20

/-- 42_hmac_sha1 R117: the padded key of 64 bytes, byte by byte, and the two hashes. -/
def Obligations.HmacFollowsItsConstruction : Prop :=
  ∀ key msg : List Byte, ∃ k0 : List Byte, k0.length = 64 ∧
    (∀ i < 64, k0.getD i 0 = (if 64 < key.length then sha1 key else key).getD i 0) ∧
    hmacSha1 key msg = sha1 (k0.map (· ^^^ 0x5C#8) ++ sha1 (k0.map (· ^^^ 0x36#8) ++ msg))

/-- 42_hmac_sha1 R119. -/
def Obligations.HmacKeyLaws : Prop :=
  (∀ key msg : List Byte, key.length ≤ 63 → hmacSha1 key msg = hmacSha1 (key ++ [0x00]) msg) ∧
  (∀ key msg : List Byte, 64 < key.length → hmacSha1 key msg = hmacSha1 (sha1 key) msg) ∧
  (∀ key msg : List Byte, (hmacSha1 key msg).length = 20)

/-! ## Truncation -/

/-- 43_truncation R142 (a) to (c). -/
def Obligations.DynamicTruncation : Prop :=
  ∀ s : State, s.portOpen = true →
    ∃ t u, s.runCommand .doff = some t ∧ t.runCommand .trunc = some u ∧
      t.offset.toNat = (Memory.read s.digest 19).toNat % 16 ∧ u.offset = t.offset ∧
      u.trunc.toNat ≤ 2147483647 ∧
      u.trunc.toNat =
        be (Memory.readBytes s.digest ((Memory.read s.digest 19).toNat % 16) 4) % 2 ^ 31

/-! ## The host's functions -/

/-- 44_host_composition R150: the counter is the floor of T over the step, plus the offset, and there is
none outside the domain. T ranges over the rational numbers, where R150 has a real number (assumption 12,
DESIGN CHOICE). -/
def Obligations.BuildCounterIsTheFloor : Prop :=
  ∀ (T : ℚ) (stepSeconds stepOffset : Int),
    (∀ c : Nat, buildCounter T stepSeconds stepOffset = some c ↔
      1 ≤ stepSeconds ∧ 0 ≤ T ∧ c < 2 ^ 64 ∧
        ((c : ℚ) - stepOffset) * stepSeconds ≤ T ∧ T < ((c : ℚ) - stepOffset + 1) * stepSeconds)

/-- 44_host_composition R152: exactly digitCount decimal digits, whose number is the value modulo
10^digitCount. -/
def Obligations.ExtractDigitsIsDecimal : Prop :=
  ∀ (v n : Nat),
    (1 ≤ n → v < 2 ^ 31 → ∃ code, extractDigits v n = some code ∧ code.length = n ∧
      (∀ c ∈ code, 0x30 ≤ c.toNat ∧ c.toNat ≤ 0x39) ∧
      code.foldl (fun acc c => acc * 10 + (c.toNat - 0x30)) 0 = v % 10 ^ n) ∧
    (n = 0 → extractDigits v n = none)

/-- 44_host_composition R154: the value, its range, and that floor(T) plus it is a multiple of the step. T
ranges over the rational numbers, where R154 takes the real T of R150 (assumption 12, DESIGN CHOICE). -/
def Obligations.RemainingSecondsReachTheNextStep : Prop :=
  ∀ (T : ℚ) (stepSeconds : Int), 1 ≤ stepSeconds → 0 ≤ T →
    ∃ r, remainingSeconds T stepSeconds = some r ∧ 1 ≤ r ∧ r ≤ stepSeconds ∧
      r = stepSeconds - ⌊T⌋ % stepSeconds ∧ (⌊T⌋ + r) % stepSeconds = 0

/-- 44_host_composition R153, 'As a function', for a secret of bytes, for a secret held as text, which is
decoded first, and where there is no counter (R150). The time is a rational number (assumption 12, DESIGN
CHOICE). -/
def Obligations.TokenIsTheTruncatedHmac : Prop :=
  (∀ (s : State) (secret : List Byte) (T : ℚ) (stepSeconds stepOffset : Int) (counter : Nat),
    s.sound → s.portOpen = true → secret.length ≤ s.cfg.keyCap →
    buildCounter T stepSeconds stepOffset = some counter →
    ∃ u code, s.computeToken secret T stepSeconds stepOffset = some (code, u) ∧
      (let d := hmacSha1 secret (toBe counter 8)
       let o := (d.getD 19 0).toNat % 16
       extractDigits (be ((d.drop o).take 4) % 2 ^ 31) 6 = some code) ∧
      u.sound ∧ u.portOpen = true) ∧
  (∀ (s : State) (text : List Byte) (T : ℚ) (stepSeconds stepOffset : Int) (counter : Nat),
    s.sound → s.portOpen = true → buildCounter T stepSeconds stepOffset = some counter →
    (∀ e, s.decodeSecret text = .error e →
      s.computeTokenOfText text T stepSeconds stepOffset = .error e) ∧
    (∀ key v, s.decodeSecret text = .ok (key, v) →
      ∃ u code, s.computeTokenOfText text T stepSeconds stepOffset = .ok (code, u) ∧
        (s.computeToken key T stepSeconds stepOffset).map Prod.fst = some code ∧
        u.sound ∧ u.portOpen = true)) ∧
  (∀ (s : State) (secret : List Byte) (T : ℚ) (stepSeconds stepOffset : Int),
    buildCounter T stepSeconds stepOffset = none →
    s.computeToken secret T stepSeconds stepOffset = none ∧
    s.computeTokenOfText secret T stepSeconds stepOffset = .error .refused)

/-- 44_host_composition R153 through the port: the host's actions for a token, taken one by one with any
number of STATUS reads between (assumptions 3, DESIGN CHOICE, and 19, DEDUCED), end with the read of the
truncated value that the formula gives. -/
def Obligations.TokenActionsReadTheTruncatedValue : Prop :=
  ∀ (s : State) (secret : List Byte) (counter : Nat) (acts rest : List HostAction), s.sound →
    s.portOpen = true → counter < 2 ^ 64 → HostAction.token s.cfg secret counter = some acts →
    s.host.actions = acts ++ rest →
    ∃ (n : Nat) (u : State) (w : Word), Sys2Proof.core.run n s = .next u ∧ u.host.actions = rest ∧
      u.portOpen = true ∧ u.host.reads.getLast? = some (.word w) ∧
      (let d := hmacSha1 secret (toBe counter 8)
       let o := (d.getD 19 0).toNat % 16
       w.toNat = be ((d.drop o).take 4) % 2 ^ 31)

/-- 44_host_composition R155: with every counter of the window defined, verify accepts exactly a code that
the token of some offset of the window equals; 'If buildCounter has no value for some offset of the window',
'verify has none either', whatever the other offsets give. That this holds of an offset after the first
match too is assumption 13 (DEDUCED); the times are rational numbers, one for each offset (assumption 12,
DESIGN CHOICE). -/
def Obligations.VerifyAcceptsExactlyTheWindow : Prop :=
  ∀ (s : State) (secret code : List Byte) (clock : List ℚ) (stepSeconds : Int) (previous future : Nat),
    s.sound → s.portOpen = true → secret.length ≤ s.cfg.keyCap →
    clock.length = previous + future + 1 →
    ((∀ k < previous + future + 1,
        buildCounter (clock.getD k 0) stepSeconds ((k : Int) - previous) ≠ none) →
      ∃ b u, s.verify secret code clock stepSeconds previous future = some (b, u) ∧
        (b = true ↔ ∃ k < previous + future + 1,
          (s.computeToken secret (clock.getD k 0) stepSeconds ((k : Int) - previous)).map Prod.fst =
            some code)) ∧
    ((∃ k < previous + future + 1,
        buildCounter (clock.getD k 0) stepSeconds ((k : Int) - previous) = none) →
      s.verify secret code clock stepSeconds previous future = none)

/-- 44_host_composition R156 and R157: a generated secret is 32 characters and decodes, on any core with
room for it, to the bytes it was made of. -/
def Obligations.GeneratedSecretDecodesToItsBytes : Prop :=
  ∀ (s : State) (bytes : List Byte), s.sound → s.portOpen = true → bytes.length = 20 →
    ∃ text t, s.generate (some bytes) = .ok (text, t) ∧ text.length = 32 ∧
      Memory.readBytes t.keymem 0 20 = bytes ∧
      ∀ s' : State, s'.sound → s'.portOpen = true →
        ∃ u, s'.decodeSecret text = .ok (bytes, u)

/-- 44_host_composition R157: the typed failures, and the key of a text that has none. -/
def Obligations.DecodeSecretReportsTypedFailures : Prop :=
  ∀ (s : State) (text : List Byte), s.sound → s.portOpen = true → text.length ≤ s.cfg.txtCap →
    (text.length % 8 ≠ 0 → s.decodeSecret text = .error .invalidEncoding) ∧
    (text.length % 8 = 0 → (∃ c ∈ text, b32val c = none) →
      s.decodeSecret text = .error .invalidCharacter) ∧
    (text.length % 8 = 0 → (∀ c ∈ text, b32val c ≠ none) →
      ∃ key u, s.decodeSecret text = .ok (key, u) ∧ 8 * key.length = 5 * text.length ∧
        Memory.readBytes u.keymem 0 key.length = key ∧ u.keyLen.toNat = key.length ∧
        encodeGroups (key.length / 5) key = text)

/-- 44_host_composition R156 and R157 through the port: the host's actions of `generate` end with the reads
of the text that the function returns, those of `decodeSecret` with the reads of the key, or with the STATUS
read that shows why there is none, the key of before still in place (70_reset_and_hazards R205). It holds
for any number of STATUS reads between (assumptions 3, DESIGN CHOICE, and 19, DEDUCED). -/
def Obligations.SecretActionsReadWhatTheFunctionsReturn : Prop :=
  ∀ (s : State) (acts rest : List HostAction), s.sound → s.portOpen = true →
    (∀ bytes text t, HostAction.generate s.cfg bytes = some acts → s.host.actions = acts ++ rest →
      s.generate (some bytes) = .ok (text, t) →
      ∃ (n : Nat) (u : State) (polls : List PortValue), Sys2Proof.core.run n s = .next u ∧
        u = { t with host := u.host } ∧ u.host.actions = rest ∧ u.portOpen = true ∧
        u.host.reads = s.host.reads ++ polls ++ .word t.txtLen :: text.map PortValue.byte) ∧
    (∀ text key t, HostAction.decode s.cfg text = some acts → s.host.actions = acts ++ .rdKey :: rest →
      s.decodeSecret text = .ok (key, t) →
      ∃ (n : Nat) (u : State) (polls : List PortValue), Sys2Proof.core.run n s = .next u ∧
        u = { t with host := u.host } ∧ u.host.actions = rest ∧ u.portOpen = true ∧
        u.host.reads = s.host.reads ++ polls ++ .word t.keyLen :: key.map PortValue.byte) ∧
    (∀ text e, HostAction.decode s.cfg text = some acts → s.host.actions = acts ++ rest →
      s.decodeSecret text = .error e →
      ∃ (n : Nat) (u : State) (w : Word), Sys2Proof.core.run n s = .next u ∧ u.host.actions = rest ∧
        u.portOpen = true ∧ u.host.reads.getLast? = some (.word w) ∧
        ((errField w = 1 ∧ e = .invalidEncoding) ∨ (errField w = 2 ∧ e = .invalidCharacter)) ∧
        u.keymem = s.keymem ∧ u.keyLen = s.keyLen)
end

