-- ==== Sys2Proof/Laws/Bytes.lean ====
section
/-! SUPPORT. `be` and `to_be` are inverse to each other (00_scope section 5). -/

namespace Sys2Proof.Machine

@[simp] theorem length_toBe (v n : Nat) : (toBe v n).length = n := by simp [toBe]

@[simp] theorem length_zeros (n : Nat) : (zeros n).length = n := by simp [zeros]

theorem getElem_toBe (v n i : Nat) (h : i < (toBe v n).length) :
    (toBe v n)[i] = BitVec.ofNat 8 (v >>> (8 * (n - 1 - i))) := by
  simp [toBe]

/-- `to_be` by its first byte: the bits above the ones of the remaining bytes. -/
theorem toBe_succ (v n : Nat) : toBe v (n + 1) = BitVec.ofNat 8 (v >>> (8 * n)) :: toBe v n := by
  refine List.ext_getElem (by simp) fun i h₁ h₂ => ?_
  rw [getElem_toBe]
  cases i with
  | zero => simp
  | succ i =>
    rw [List.getElem_cons_succ, getElem_toBe]
    congr 3
    omega

/-- n bytes are 8n bits. -/
theorem two_pow_eq_byte_pow (n : Nat) : 2 ^ (8 * n) = 256 ^ n := pow_mul 2 8 n

/-- `be(to_be(v, n)) = v` modulo what n bytes can hold. -/
theorem be_toBe (v n : Nat) : be (toBe v n) = v % 256 ^ n := by
  induction n with
  | zero => simp [toBe, be, Nat.mod_one]
  | succ n ih =>
    rw [toBe_succ, be, ih, length_toBe, BitVec.toNat_ofNat, Nat.shiftRight_eq_div_pow, pow_succ 256 n,
      two_pow_eq_byte_pow, Nat.mod_mul]
    ring

theorem be_lt (bs : List Byte) : be bs < 256 ^ bs.length := by
  induction bs with
  | nil => simp [be]
  | cons b bs ih =>
    have hb : b.toNat < 256 := b.isLt
    calc be (b :: bs) = b.toNat * 256 ^ bs.length + be bs := rfl
      _ < b.toNat * 256 ^ bs.length + 256 ^ bs.length := by omega
      _ = (b.toNat + 1) * 256 ^ bs.length := by ring
      _ ≤ 256 * 256 ^ bs.length := Nat.mul_le_mul_right _ hb
      _ = 256 ^ (b :: bs).length := by rw [List.length_cons, pow_succ]; ring

/-- Bits above the ones that n bytes hold do not matter to `to_be`. -/
theorem toBe_add_mul (v k n : Nat) : toBe (k * 256 ^ n + v) n = toBe v n := by
  refine List.ext_getElem (by simp) fun i h₁ h₂ => ?_
  simp only [length_toBe] at h₁
  rw [getElem_toBe, getElem_toBe]
  apply BitVec.eq_of_toNat_eq
  rw [BitVec.toNat_ofNat, BitVec.toNat_ofNat, Nat.shiftRight_eq_div_pow, Nat.shiftRight_eq_div_pow]
  obtain ⟨j, rfl⟩ : ∃ j, n = j + 1 + i := ⟨n - 1 - i, by omega⟩
  rw [show j + 1 + i - 1 - i = j by omega,
    show k * 256 ^ (j + 1 + i) + v = (k * 256 ^ (i + 1)) * 2 ^ (8 * j) + v by
      rw [two_pow_eq_byte_pow]; ring,
    mul_comm _ (2 ^ (8 * j)), Nat.mul_add_div (by positivity), pow_succ,
    show k * (256 ^ i * 256) + v / 2 ^ (8 * j) = v / 2 ^ (8 * j) + 2 ^ 8 * (k * 256 ^ i) by ring,
    Nat.add_mul_mod_self_left]

/-- `to_be(be(s), len(s)) = s`. -/
theorem toBe_be (bs : List Byte) : toBe (be bs) bs.length = bs := by
  induction bs with
  | nil => rfl
  | cons b bs ih =>
    rw [List.length_cons, toBe_succ, be, toBe_add_mul, ih]
    congr 1
    apply BitVec.eq_of_toNat_eq
    rw [BitVec.toNat_ofNat, Nat.shiftRight_eq_div_pow, two_pow_eq_byte_pow, mul_comm, Nat.mul_add_div (by positivity), Nat.div_eq_of_lt (be_lt bs)]
    exact Nat.mod_eq_of_lt b.isLt

/-- Sequences of one length with one number are one sequence. -/
theorem be_injective {bs cs : List Byte} (hl : bs.length = cs.length) (h : be bs = be cs) : bs = cs := by
  rw [← toBe_be bs, ← toBe_be cs, h, hl]

end Sys2Proof.Machine
end

