-- ==== Sys2Proof/Laws/Base32.lean ====
section
/-! SUPPORT. The alphabet and the group of Base32 (40_base32 R80, R81): the two directions are inverse,
character by character, group by group and text by text. -/

namespace Sys2Proof.Machine

/-! ### Characters -/

theorem b32val_b32char (v : BitVec 5) : b32val (b32char v) = some v := by revert v; decide

theorem b32char_of_b32val {c : Byte} {v : BitVec 5} (h : b32val c = some v) : b32char v = c := by
  have all : ∀ c : Byte, ((b32val c).map b32char).getD c = c := by decide +kernel
  simpa [h] using all c

/-! ### Five-bit values of a number, most significant first -/

/-- The n five-bit values of a number, most significant first. -/
def valuesOf (v n : Nat) : List (BitVec 5) :=
  (List.range n).map fun j => BitVec.ofNat 5 (v >>> (5 * (n - 1 - j)))

@[simp] theorem length_valuesOf (v n : Nat) : (valuesOf v n).length = n := by simp [valuesOf]

theorem getElem_valuesOf (v n j : Nat) (h : j < (valuesOf v n).length) :
    (valuesOf v n)[j] = BitVec.ofNat 5 (v >>> (5 * (n - 1 - j))) := by
  simp [valuesOf]

theorem valuesOf_succ (v n : Nat) :
    valuesOf v (n + 1) = BitVec.ofNat 5 (v >>> (5 * n)) :: valuesOf v n := by
  refine List.ext_getElem (by simp) fun j h₁ h₂ => ?_
  rw [getElem_valuesOf]
  cases j with
  | zero => simp
  | succ j =>
    rw [List.getElem_cons_succ, getElem_valuesOf]
    congr 3
    omega

/-- n values are 5n bits. -/
theorem two_pow_eq_value_pow (n : Nat) : 2 ^ (5 * n) = 32 ^ n := pow_mul 2 5 n

theorem groupValue_valuesOf (v n : Nat) : groupValue (valuesOf v n) = v % 32 ^ n := by
  induction n with
  | zero => simp [valuesOf, groupValue, Nat.mod_one]
  | succ n ih =>
    rw [valuesOf_succ, groupValue, ih, length_valuesOf, BitVec.toNat_ofNat, Nat.shiftRight_eq_div_pow,
      pow_succ 32 n, two_pow_eq_value_pow, Nat.mod_mul]
    ring

theorem groupValue_lt (vs : List (BitVec 5)) : groupValue vs < 32 ^ vs.length := by
  induction vs with
  | nil => simp [groupValue]
  | cons v vs ih =>
    have hv : v.toNat < 32 := v.isLt
    calc groupValue (v :: vs) = v.toNat * 32 ^ vs.length + groupValue vs := by
          rw [groupValue, two_pow_eq_value_pow]
      _ < v.toNat * 32 ^ vs.length + 32 ^ vs.length := by omega
      _ = (v.toNat + 1) * 32 ^ vs.length := by ring
      _ ≤ 32 * 32 ^ vs.length := Nat.mul_le_mul_right _ hv
      _ = 32 ^ (v :: vs).length := by rw [List.length_cons, pow_succ]; ring

theorem groupValue_injective {vs ws : List (BitVec 5)} (hl : vs.length = ws.length)
    (h : groupValue vs = groupValue ws) : vs = ws := by
  induction vs generalizing ws with
  | nil => exact (List.length_eq_zero_iff.1 hl.symm).symm
  | cons v vs ih =>
    cases ws with
    | nil => simp at hl
    | cons w ws =>
      have hl' : vs.length = ws.length := by simpa using hl
      have h₁ := groupValue_lt vs
      have h₂ := groupValue_lt ws
      rw [groupValue, groupValue, two_pow_eq_value_pow, two_pow_eq_value_pow, hl'] at h
      rw [hl'] at h₁
      have hd : v.toNat = w.toNat := by
        have hq := congrArg (· / 32 ^ ws.length) h
        have hpos : 0 < 32 ^ ws.length := by positivity
        simp only [mul_comm _ (32 ^ ws.length), Nat.mul_add_div hpos, Nat.div_eq_of_lt h₁,
          Nat.div_eq_of_lt h₂, Nat.add_zero] at hq
        exact hq
      rw [BitVec.eq_of_toNat_eq hd, ih hl' (by rw [hd] at h; omega)]

theorem valuesOf_groupValue (vs : List (BitVec 5)) : valuesOf (groupValue vs) vs.length = vs :=
  groupValue_injective (by simp) (by rw [groupValue_valuesOf, Nat.mod_eq_of_lt (groupValue_lt vs)])

/-! ### One group -/

@[simp] theorem length_encodeGroup (b : List Byte) : (encodeGroup b).length = 8 := by simp [encodeGroup]

@[simp] theorem length_decodeGroup (vs : List (BitVec 5)) : (decodeGroup vs).length = 5 := by
  simp [decodeGroup]

/-- The characters of a group are the characters of its eight five-bit values. -/
theorem encodeGroup_eq (b : List Byte) : encodeGroup b = (valuesOf (be b) 8).map b32char := by
  refine List.ext_getElem (by simp) fun j h₁ h₂ => ?_
  simp only [length_encodeGroup] at h₁
  simp only [encodeGroup, List.getElem_map, List.getElem_range, getElem_valuesOf]
  congr 3
  omega

theorem decodeGroup_valuesOf {b : List Byte} (h : b.length = 5) : decodeGroup (valuesOf (be b) 8) = b := by
  have hb := be_lt b
  rw [h] at hb
  rw [decodeGroup, groupValue_valuesOf, Nat.mod_eq_of_lt (by omega), ← h, toBe_be]

theorem be_decodeGroup {vs : List (BitVec 5)} (h : vs.length = 8) : be (decodeGroup vs) = groupValue vs := by
  have hv := groupValue_lt vs
  rw [h] at hv
  rw [decodeGroup, be_toBe, Nat.mod_eq_of_lt (by omega)]

theorem encodeGroup_decodeGroup {vs : List (BitVec 5)} (h : vs.length = 8) :
    encodeGroup (decodeGroup vs) = vs.map b32char := by
  rw [encodeGroup_eq, be_decodeGroup h, ← h, valuesOf_groupValue]

/-! ### Texts -/

theorem textValues_map_b32char (vs : List (BitVec 5)) : textValues (vs.map b32char) = some vs := by
  induction vs with
  | nil => rfl
  | cons v vs ih => simp [textValues, b32val_b32char, ih]

theorem map_b32char_of_textValues {cs : List Byte} {vs : List (BitVec 5)} (h : textValues cs = some vs) :
    vs.map b32char = cs := by
  induction cs generalizing vs with
  | nil => simp_all [textValues]
  | cons c cs ih =>
    unfold textValues at h
    split at h
    · next v ws hv hw =>
      obtain rfl : v :: ws = vs := by simpa using h
      simp [b32char_of_b32val hv, ih hw]
    · simp at h

theorem length_textValues {cs : List Byte} {vs : List (BitVec 5)} (h : textValues cs = some vs) :
    vs.length = cs.length := by
  rw [← map_b32char_of_textValues h, List.length_map]

/-- A text has values exactly when each of its characters has one. -/
theorem textValues_eq_none {cs : List Byte} : textValues cs = none ↔ ∃ c ∈ cs, b32val c = none := by
  induction cs with
  | nil => simp [textValues]
  | cons c cs ih =>
    cases hv : b32val c <;> cases hw : textValues cs <;> simp_all [textValues]

theorem getElem_textValues {cs : List Byte} {vs : List (BitVec 5)} (h : textValues cs = some vs) {k : Nat}
    (hk : k < cs.length) (hk' : k < vs.length) : b32val cs[k] = some vs[k] := by
  simp only [← map_b32char_of_textValues h, List.getElem_map, b32val_b32char]

@[simp] theorem length_decodeGroups (n : Nat) (vs : List (BitVec 5)) : (decodeGroups n vs).length = 5 * n := by
  induction n generalizing vs with
  | zero => rfl
  | succ n ih => simp [decodeGroups, ih]; omega

@[simp] theorem length_encodeGroups (n : Nat) (bs : List Byte) : (encodeGroups n bs).length = 8 * n := by
  induction n generalizing bs with
  | zero => rfl
  | succ n ih => simp [encodeGroups, ih]; omega

/-- The five-bit values of the groups of a key. -/
def keyValues : Nat → List Byte → List (BitVec 5)
  | 0, _ => []
  | n + 1, bs => valuesOf (be (bs.take 5)) 8 ++ keyValues n (bs.drop 5)

@[simp] theorem length_keyValues (n : Nat) (bs : List Byte) : (keyValues n bs).length = 8 * n := by
  induction n generalizing bs with
  | zero => rfl
  | succ n ih => simp [keyValues, ih]; omega

theorem encodeGroups_eq (n : Nat) (bs : List Byte) : encodeGroups n bs = (keyValues n bs).map b32char := by
  induction n generalizing bs with
  | zero => rfl
  | succ n ih => simp [encodeGroups, keyValues, encodeGroup_eq, ih]

theorem decodeGroups_keyValues {n : Nat} {bs : List Byte} (h : bs.length = 5 * n) :
    decodeGroups n (keyValues n bs) = bs := by
  induction n generalizing bs with
  | zero => exact (List.length_eq_zero_iff.1 (by simpa using h)).symm
  | succ n ih =>
    have h₅ : (bs.take 5).length = 5 := by simp; omega
    rw [keyValues, decodeGroups, List.take_left' (by simp), List.drop_left' (by simp),
      decodeGroup_valuesOf h₅, ih (by simp; omega), List.take_append_drop]

theorem encodeGroups_decodeGroups {n : Nat} {vs : List (BitVec 5)} (h : vs.length = 8 * n) :
    encodeGroups n (decodeGroups n vs) = vs.map b32char := by
  induction n generalizing vs with
  | zero =>
    obtain rfl : vs = [] := List.length_eq_zero_iff.1 (by simpa using h)
    rfl
  | succ n ih =>
    rw [decodeGroups, encodeGroups, List.take_left' (by simp), List.drop_left' (by simp),
      encodeGroup_decodeGroup (by simp; omega), ih (by simp; omega), ← List.map_append,
      List.take_append_drop]

/-- Decoding what was encoded gives the key back (40_base32 R87). -/
theorem textValues_encodeGroups (n : Nat) (bs : List Byte) :
    textValues (encodeGroups n bs) = some (keyValues n bs) := by
  rw [encodeGroups_eq, textValues_map_b32char]

/-- Byte i of group g of a decoded text. -/
theorem getElem_decodeGroups {n g i : Nat} {vs : List (BitVec 5)} (hg : g < n) (hi : i < 5)
    (h : 5 * g + i < (decodeGroups n vs).length) :
    (decodeGroups n vs)[5 * g + i] =
      (decodeGroup ((vs.drop (8 * g)).take 8))[i]'(by simpa using hi) := by
  induction n generalizing g vs with
  | zero => omega
  | succ n ih =>
    cases g with
    | zero => simp [decodeGroups, hi]
    | succ g =>
      simp only [decodeGroups, List.getElem_append, length_decodeGroup]
      rw [dif_neg (by omega)]
      have := ih (vs := vs.drop 8) (g := g) (by omega) (by simp; omega)
      simp only [List.drop_drop, show 5 * (g + 1) + i - 5 = 5 * g + i by omega] at this ⊢
      rw [this]
      congr 4
      omega

/-- Character j of group g of an encoded key. -/
theorem getElem_encodeGroups {n g j : Nat} {bs : List Byte} (hg : g < n) (hj : j < 8)
    (h : 8 * g + j < (encodeGroups n bs).length) :
    (encodeGroups n bs)[8 * g + j] =
      b32char (BitVec.ofNat 5 (be ((bs.drop (5 * g)).take 5) >>> (35 - 5 * j))) := by
  induction n generalizing g bs with
  | zero => omega
  | succ n ih =>
    cases g with
    | zero => simp [encodeGroups, encodeGroup, hj]
    | succ g =>
      simp only [encodeGroups, List.getElem_append, length_encodeGroup]
      rw [dif_neg (by omega)]
      have := ih (bs := bs.drop 5) (g := g) (by omega) (by simp; omega)
      simp only [List.drop_drop, show 8 * (g + 1) + j - 8 = 8 * g + j by omega] at this ⊢
      rw [this]
      congr 6
      omega

end Sys2Proof.Machine
end

