-- ==== Sys2Proof/Laws/Memory.lean ====
section
/-! SUPPORT. What the operations over a buffer do: a read after a write, the canonical form, and that
canonical buffers with the same bytes are the same data. -/

namespace Sys2Proof.Machine.Memory

@[simp] theorem read_nil (k : Nat) : read [] k = 0#8 := rfl

@[simp] theorem read_cons (j : Nat) (x : Byte) (m : Memory) (k : Nat) :
    read ((j, x) :: m) k = if k = j then x else read m k := rfl

/-! ### One byte -/

/-- An index below every listed one reads as the reset content. -/
theorem read_eq_zero_of_lt {m : Memory} {k : Nat} (h : ∀ c ∈ m, k < c.1) : read m k = 0#8 := by
  induction m with
  | nil => rfl
  | cons c m ih =>
    obtain ⟨j, x⟩ := c
    have hj : k < j := h (j, x) (by simp)
    simp [Nat.ne_of_lt hj, ih fun c hc => h c (by simp [hc])]

theorem read_write_same {cap : Nat} {m : Memory} (hm : wf cap m) (k : Nat) (v : Byte) :
    read (write m k v) k = v := by
  induction m with
  | nil => by_cases hv : v = 0#8 <;> simp [write, hv]
  | cons c m ih =>
    obtain ⟨j, x⟩ := c
    obtain ⟨hp, hb⟩ := hm
    have hp' := List.pairwise_cons.1 hp
    by_cases hkj : k < j
    · have hz : read m k = 0#8 := read_eq_zero_of_lt fun c hc => lt_trans hkj (hp'.1 c hc)
      by_cases hv : v = 0#8 <;> simp [write, hkj, hv, Nat.ne_of_lt hkj, hz]
    · by_cases hk : k = j
      · have hz : read m k = 0#8 := read_eq_zero_of_lt fun c hc => hk ▸ hp'.1 c hc
        subst hk
        by_cases hv : v = 0#8 <;> simp [write, hv, hz]
      · simp [write, hkj, hk, ih ⟨hp'.2, fun c hc => hb c (by simp [hc])⟩]

theorem read_write_ne {m : Memory} {k j : Nat} (h : j ≠ k) (v : Byte) :
    read (write m k v) j = read m j := by
  induction m with
  | nil => by_cases hv : v = 0#8 <;> simp [write, hv, h]
  | cons c m ih =>
    obtain ⟨i, x⟩ := c
    by_cases hki : k < i
    · by_cases hv : v = 0#8 <;> simp [write, hki, hv, h]
    · by_cases hk : k = i
      · subst hk
        by_cases hv : v = 0#8 <;> simp [write, hv, h]
      · simp [write, hki, hk, ih]

theorem read_write {cap : Nat} {m : Memory} (hm : wf cap m) (k j : Nat) (v : Byte) :
    read (write m k v) j = if j = k then v else read m j := by
  by_cases h : j = k
  · subst h; simp [read_write_same hm]
  · simp [h, read_write_ne h]

/-! ### The canonical form -/

theorem wf_nil (cap : Nat) : wf cap [] := by simp [wf]

/-- What a write can list: the byte written, or a byte listed before. -/
theorem mem_write {m : Memory} {k : Nat} {v : Byte} {c : Host.Cell} (h : c ∈ write m k v) :
    (c = (k, v) ∧ v ≠ 0#8) ∨ c ∈ m := by
  induction m with
  | nil => by_cases hv : v = 0#8 <;> simp_all [write]
  | cons d m ih =>
    obtain ⟨j, x⟩ := d
    unfold write at h
    split at h
    · split at h <;> simp_all
    · split at h
      · split at h <;> simp_all
        tauto
      · rcases List.mem_cons.1 h with h | h
        · simp [h]
        · rcases ih h with h | h <;> simp [h]

theorem wf_write {cap : Nat} {m : Memory} (hm : wf cap m) {k : Nat} (hk : k < cap) (v : Byte) :
    wf cap (write m k v) := by
  refine ⟨?_, fun c hc => ?_⟩
  · have hp := hm.1
    clear hm
    induction m with
    | nil => by_cases hv : v = 0#8 <;> simp [write, hv]
    | cons c m ih =>
      obtain ⟨j, x⟩ := c
      have hp' := List.pairwise_cons.1 hp
      by_cases hkj : k < j
      · by_cases hv : v = 0#8
        · simpa [write, hkj, hv] using hp'
        · simp only [write, hkj, hv, if_true, if_false]
          refine List.pairwise_cons.2 ⟨fun d hd => ?_, hp⟩
          rcases List.mem_cons.1 hd with rfl | hd
          · exact hkj
          · exact lt_trans hkj (hp'.1 d hd)
      · by_cases hkj' : k = j
        · subst hkj'
          by_cases hv : v = 0#8
          · simpa [write, hv] using hp'.2
          · simpa [write, hv] using hp'
        · simp only [write, hkj, hkj', if_false]
          refine List.pairwise_cons.2 ⟨fun d hd => ?_, ih hp'.2⟩
          rcases mem_write hd with ⟨rfl, -⟩ | hd
          · show j < k
            omega
          · exact hp'.1 d hd
  · rcases mem_write hc with ⟨rfl, hv⟩ | hc
    · exact ⟨hk, hv⟩
    · exact hm.2 c hc

/-- Two canonical buffers with the same bytes are the same data. -/
theorem ext_of_read {cap : Nat} {m m' : Memory} (hm : wf cap m) (hm' : wf cap m')
    (h : ∀ k, read m k = read m' k) : m = m' := by
  induction m generalizing m' with
  | nil =>
    cases m' with
    | nil => rfl
    | cons c m' =>
      obtain ⟨j, x⟩ := c
      exact absurd (by simpa using (h j).symm) (hm'.2 (j, x) (by simp)).2
  | cons c m ih =>
    obtain ⟨j, x⟩ := c
    have hx := (hm.2 (j, x) (by simp)).2
    have hp := List.pairwise_cons.1 hm.1
    cases m' with
    | nil => exact absurd (by simpa using h j) hx
    | cons c' m' =>
      obtain ⟨j', x'⟩ := c'
      have hx' := (hm'.2 (j', x') (by simp)).2
      have hp' := List.pairwise_cons.1 hm'.1
      have hjj : j = j' := by
        rcases lt_trichotomy j j' with hlt | heq | hgt
        · have hz : read ((j', x') :: m') j = 0#8 := read_eq_zero_of_lt fun d hd => by
            rcases List.mem_cons.1 hd with rfl | hd
            · exact hlt
            · exact lt_trans hlt (hp'.1 d hd)
          exact absurd ((by simpa using h j : x = _).trans (by simpa using hz)) hx
        · exact heq
        · have hz : read ((j, x) :: m) j' = 0#8 := read_eq_zero_of_lt fun d hd => by
            rcases List.mem_cons.1 hd with rfl | hd
            · exact hgt
            · exact lt_trans hgt (hp.1 d hd)
          exact absurd ((by simpa using (h j').symm : x' = _).trans (by simpa using hz)) hx'
      subst hjj
      have hxx : x = x' := by simpa using h j
      subst hxx
      congr 1
      refine ih ⟨hp.2, fun c hc => hm.2 c (by simp [hc])⟩ ⟨hp'.2, fun c hc => hm'.2 c (by simp [hc])⟩
        fun k => ?_
      by_cases hk : k = j
      · subst hk
        rw [read_eq_zero_of_lt hp.1, read_eq_zero_of_lt hp'.1]
      · simpa [hk] using h k

/-! ### A sequence of bytes -/

theorem wf_writeBytes {cap : Nat} {bs : List Byte} {m : Memory} {a : Nat} (hm : wf cap m)
    (h : a + bs.length ≤ cap) : wf cap (writeBytes m a bs) := by
  induction bs generalizing m a with
  | nil => exact hm
  | cons b bs ih =>
    simp only [List.length_cons] at h
    exact ih (wf_write hm (by omega) b) (by omega)

theorem read_writeBytes {cap : Nat} {bs : List Byte} {m : Memory} {a : Nat} (hm : wf cap m)
    (h : a + bs.length ≤ cap) (k : Nat) :
    read (writeBytes m a bs) k = if a ≤ k then bs.getD (k - a) (read m k) else read m k := by
  induction bs generalizing m a with
  | nil => simp [writeBytes]
  | cons b bs ih =>
    simp only [List.length_cons] at h
    rw [writeBytes, ih (wf_write hm (by omega) b) (by omega), read_write hm]
    rcases lt_trichotomy k a with hk | hk | hk
    · rw [if_neg (by omega), if_neg (by omega), if_neg (by omega)]
    · subst hk
      simp
    · obtain ⟨d, rfl⟩ : ∃ d, k = a + 1 + d := ⟨k - (a + 1), by omega⟩
      rw [if_pos (by omega), if_neg (by omega), if_pos (by omega)]
      rw [show a + 1 + d - (a + 1) = d by omega, show a + 1 + d - a = d + 1 by omega]
      rfl

theorem read_writeBytes_of_lt {cap : Nat} {bs : List Byte} {m : Memory} (hm : wf cap m)
    (h : bs.length ≤ cap) {k : Nat} (hk : k < bs.length) : read (writeBytes m 0 bs) k = bs[k] := by
  rw [read_writeBytes hm (by omega)]
  simp [hk]

/-- The bytes outside the ones written are as they were, in any buffer. -/
theorem read_writeBytes_outside {bs : List Byte} {m : Memory} {a k : Nat}
    (h : k < a ∨ a + bs.length ≤ k) : read (writeBytes m a bs) k = read m k := by
  induction bs generalizing m a with
  | nil => rfl
  | cons b bs ih =>
    simp only [List.length_cons] at h
    rw [writeBytes, ih (by omega), read_write_ne (by omega)]

@[simp] theorem length_readBytes (m : Memory) (a n : Nat) : (readBytes m a n).length = n := by
  simp [readBytes]

@[simp] theorem getElem_readBytes (m : Memory) (a n i : Nat) (h : i < (readBytes m a n).length) :
    (readBytes m a n)[i] = read m (a + i) := by
  simp [readBytes]

theorem readBytes_writeBytes {cap : Nat} {bs : List Byte} {m : Memory} (hm : wf cap m)
    (h : bs.length ≤ cap) : readBytes (writeBytes m 0 bs) 0 bs.length = bs := by
  refine List.ext_getElem (by simp) fun i h₁ h₂ => ?_
  rw [getElem_readBytes, Nat.zero_add, read_writeBytes_of_lt hm h h₂]

theorem readBytes_congr {m m' : Memory} {a n : Nat} (h : ∀ k, a ≤ k → k < a + n → read m k = read m' k) :
    readBytes m a n = readBytes m' a n := by
  refine List.ext_getElem (by simp) fun i h₁ h₂ => ?_
  simp only [length_readBytes] at h₁
  simp [h (a + i) (by omega) (by omega)]

/-- Writing the bytes a canonical buffer already holds changes nothing. -/
theorem writeBytes_self {cap : Nat} {bs : List Byte} {m : Memory} (hm : wf cap m) (h : bs.length ≤ cap)
    (hr : readBytes m 0 bs.length = bs) : writeBytes m 0 bs = m := by
  refine ext_of_read (wf_writeBytes hm (by omega)) hm fun k => ?_
  by_cases hk : k < bs.length
  · rw [read_writeBytes_of_lt hm h hk]
    have := congrArg (·[k]?) hr
    simpa [hk, readBytes] using this.symm
  · exact read_writeBytes_outside (Or.inr (by omega))

/-- Writing the same bytes again changes nothing. -/
theorem writeBytes_writeBytes {cap : Nat} {bs : List Byte} {m : Memory} (hm : wf cap m)
    (h : bs.length ≤ cap) : writeBytes (writeBytes m 0 bs) 0 bs = writeBytes m 0 bs :=
  writeBytes_self (wf_writeBytes hm (by omega)) h (readBytes_writeBytes hm h)

end Sys2Proof.Machine.Memory
end

