-- ==== Sys2Proof/Laws/Sha1.lean ====
section
/-! SUPPORT. The sizes in SHA-1 and HMAC: what a digest's length, the padding and the schedule are. -/

namespace Sys2Proof.Machine

namespace Sha1

@[simp] theorem length_bytes (h : Hash) : h.bytes.length = 20 := by simp [Hash.bytes]

@[simp] theorem length_wordsOf (n : Nat) (bs : List Byte) : (wordsOf n bs).length = n := by
  induction n generalizing bs with
  | zero => rfl
  | succ n ih => simp [wordsOf, ih]

theorem length_pad (m : List Byte) : (pad m).length = m.length + 9 + padZeros m.length := by
  simp [pad]
  omega

theorem getElem_wordsOf {n : Nat} {bs : List Byte} {t : Nat} (h : t < (wordsOf n bs).length) :
    (wordsOf n bs)[t] = BitVec.ofNat 32 (be ((bs.drop (4 * t)).take 4)) := by
  induction n generalizing bs t with
  | zero => simp at h
  | succ n ih =>
    cases t with
    | zero => simp [wordsOf]
    | succ t =>
      have ht : t < (wordsOf n (bs.drop 4)).length := by simpa using h
      simp only [wordsOf, List.getElem_cons_succ, ih ht, List.drop_drop]
      congr 4
      omega

@[simp] theorem length_extend (n : Nat) (ws : List Word) : (extend n ws).length = ws.length + n := by
  induction n generalizing ws with
  | zero => rfl
  | succ n ih => simp [extend, ih]; omega

end Sha1

@[simp] theorem length_sha1 (m : List Byte) : (sha1 m).length = 20 := by simp [sha1]

@[simp] theorem length_hmacSha1 (key msg : List Byte) : (hmacSha1 key msg).length = 20 := by simp [hmacSha1]

@[simp] theorem length_blockKey (key : List Byte) : (blockKey key).length = 64 := by
  unfold blockKey
  split
  · simp
  · simp
    omega

end Sys2Proof.Machine
end

