-- ==== Sys2Proof/Laws/State.lean ====
section
/-! SUPPORT. What each named update does to each field of State, true by definition. -/

namespace Sys2Proof.Machine.State

/-! ### Issue, the core's part (30_encoding R63) -/

@[simp] theorem latch_cfg (s : State) (v : Word) : (s.latch v).cfg = s.cfg := rfl
@[simp] theorem latch_cmd (s : State) (v : Word) : (s.latch v).cmd = v := rfl
@[simp] theorem latch_busy (s : State) (v : Word) : (s.latch v).busy = true := rfl
@[simp] theorem latch_err (s : State) (v : Word) : (s.latch v).err = .none := rfl
@[simp] theorem latch_ctrHi (s : State) (v : Word) : (s.latch v).ctrHi = s.ctrHi := rfl
@[simp] theorem latch_ctrLo (s : State) (v : Word) : (s.latch v).ctrLo = s.ctrLo := rfl
@[simp] theorem latch_keyLen (s : State) (v : Word) : (s.latch v).keyLen = s.keyLen := rfl
@[simp] theorem latch_msgLen (s : State) (v : Word) : (s.latch v).msgLen = s.msgLen := rfl
@[simp] theorem latch_txtLen (s : State) (v : Word) : (s.latch v).txtLen = s.txtLen := rfl
@[simp] theorem latch_offset (s : State) (v : Word) : (s.latch v).offset = s.offset := rfl
@[simp] theorem latch_trunc (s : State) (v : Word) : (s.latch v).trunc = s.trunc := rfl
@[simp] theorem latch_digest (s : State) (v : Word) : (s.latch v).digest = s.digest := rfl
@[simp] theorem latch_keymem (s : State) (v : Word) : (s.latch v).keymem = s.keymem := rfl
@[simp] theorem latch_msgmem (s : State) (v : Word) : (s.latch v).msgmem = s.msgmem := rfl
@[simp] theorem latch_txtmem (s : State) (v : Word) : (s.latch v).txtmem = s.txtmem := rfl
@[simp] theorem latch_host (s : State) (v : Word) : (s.latch v).host = s.host := rfl

/-! ### Issue, with the host's side -/

@[simp] theorem issue_cfg (s : State) (v : Word) : (s.issue v).cfg = s.cfg := rfl
@[simp] theorem issue_cmd (s : State) (v : Word) : (s.issue v).cmd = v := rfl
@[simp] theorem issue_busy (s : State) (v : Word) : (s.issue v).busy = true := rfl
@[simp] theorem issue_err (s : State) (v : Word) : (s.issue v).err = .none := rfl
@[simp] theorem issue_ctrHi (s : State) (v : Word) : (s.issue v).ctrHi = s.ctrHi := rfl
@[simp] theorem issue_ctrLo (s : State) (v : Word) : (s.issue v).ctrLo = s.ctrLo := rfl
@[simp] theorem issue_keyLen (s : State) (v : Word) : (s.issue v).keyLen = s.keyLen := rfl
@[simp] theorem issue_msgLen (s : State) (v : Word) : (s.issue v).msgLen = s.msgLen := rfl
@[simp] theorem issue_txtLen (s : State) (v : Word) : (s.issue v).txtLen = s.txtLen := rfl
@[simp] theorem issue_offset (s : State) (v : Word) : (s.issue v).offset = s.offset := rfl
@[simp] theorem issue_trunc (s : State) (v : Word) : (s.issue v).trunc = s.trunc := rfl
@[simp] theorem issue_digest (s : State) (v : Word) : (s.issue v).digest = s.digest := rfl
@[simp] theorem issue_keymem (s : State) (v : Word) : (s.issue v).keymem = s.keymem := rfl
@[simp] theorem issue_msgmem (s : State) (v : Word) : (s.issue v).msgmem = s.msgmem := rfl
@[simp] theorem issue_txtmem (s : State) (v : Word) : (s.issue v).txtmem = s.txtmem := rfl
@[simp] theorem issue_host_actions (s : State) (v : Word) : (s.issue v).host.actions = s.host.actions := rfl
@[simp] theorem issue_host_reads (s : State) (v : Word) : (s.issue v).host.reads = s.host.reads := rfl
@[simp] theorem issue_host_window (s : State) (v : Word) : (s.issue v).host.window = true := rfl
@[simp] theorem issue_host_delay (s : State) (v : Word) : (s.issue v).host.delay = Config.completionDelay s.host.issues := rfl
@[simp] theorem issue_host_issues (s : State) (v : Word) : (s.issue v).host.issues = s.host.issues + 1 := rfl

/-! ### Completion (30_encoding R64) -/

@[simp] theorem finish_cfg (s : State) (e : ErrCode) : (s.finish e).cfg = s.cfg := rfl
@[simp] theorem finish_cmd (s : State) (e : ErrCode) : (s.finish e).cmd = s.cmd := rfl
@[simp] theorem finish_busy (s : State) (e : ErrCode) : (s.finish e).busy = false := rfl
@[simp] theorem finish_err (s : State) (e : ErrCode) : (s.finish e).err = e := rfl
@[simp] theorem finish_ctrHi (s : State) (e : ErrCode) : (s.finish e).ctrHi = s.ctrHi := rfl
@[simp] theorem finish_ctrLo (s : State) (e : ErrCode) : (s.finish e).ctrLo = s.ctrLo := rfl
@[simp] theorem finish_keyLen (s : State) (e : ErrCode) : (s.finish e).keyLen = s.keyLen := rfl
@[simp] theorem finish_msgLen (s : State) (e : ErrCode) : (s.finish e).msgLen = s.msgLen := rfl
@[simp] theorem finish_txtLen (s : State) (e : ErrCode) : (s.finish e).txtLen = s.txtLen := rfl
@[simp] theorem finish_offset (s : State) (e : ErrCode) : (s.finish e).offset = s.offset := rfl
@[simp] theorem finish_trunc (s : State) (e : ErrCode) : (s.finish e).trunc = s.trunc := rfl
@[simp] theorem finish_digest (s : State) (e : ErrCode) : (s.finish e).digest = s.digest := rfl
@[simp] theorem finish_keymem (s : State) (e : ErrCode) : (s.finish e).keymem = s.keymem := rfl
@[simp] theorem finish_msgmem (s : State) (e : ErrCode) : (s.finish e).msgmem = s.msgmem := rfl
@[simp] theorem finish_txtmem (s : State) (e : ErrCode) : (s.finish e).txtmem = s.txtmem := rfl
@[simp] theorem finish_host (s : State) (e : ErrCode) : (s.finish e).host = s.host := rfl

/-! ### Error completion (60_exceptions R183) -/

@[simp] theorem raise_cfg (s : State) (e : ErrCode) : (s.raise e).cfg = s.cfg := rfl
@[simp] theorem raise_cmd (s : State) (e : ErrCode) : (s.raise e).cmd = s.cmd := rfl
@[simp] theorem raise_busy (s : State) (e : ErrCode) : (s.raise e).busy = false := rfl
@[simp] theorem raise_err (s : State) (e : ErrCode) : (s.raise e).err = e := rfl
@[simp] theorem raise_ctrHi (s : State) (e : ErrCode) : (s.raise e).ctrHi = s.ctrHi := rfl
@[simp] theorem raise_ctrLo (s : State) (e : ErrCode) : (s.raise e).ctrLo = s.ctrLo := rfl
@[simp] theorem raise_keyLen (s : State) (e : ErrCode) : (s.raise e).keyLen = s.keyLen := rfl
@[simp] theorem raise_msgLen (s : State) (e : ErrCode) : (s.raise e).msgLen = s.msgLen := rfl
@[simp] theorem raise_txtLen (s : State) (e : ErrCode) : (s.raise e).txtLen = s.txtLen := rfl
@[simp] theorem raise_offset (s : State) (e : ErrCode) : (s.raise e).offset = s.offset := rfl
@[simp] theorem raise_trunc (s : State) (e : ErrCode) : (s.raise e).trunc = s.trunc := rfl
@[simp] theorem raise_digest (s : State) (e : ErrCode) : (s.raise e).digest = s.digest := rfl
@[simp] theorem raise_keymem (s : State) (e : ErrCode) : (s.raise e).keymem = s.keymem := rfl
@[simp] theorem raise_msgmem (s : State) (e : ErrCode) : (s.raise e).msgmem = s.msgmem := rfl
@[simp] theorem raise_txtmem (s : State) (e : ErrCode) : (s.raise e).txtmem = s.txtmem := rfl
@[simp] theorem raise_host (s : State) (e : ErrCode) : (s.raise e).host = s.host := rfl

/-! ### Reset (70_reset_and_hazards R200) -/

@[simp] theorem applyReset_cfg (s : State) : (s.applyReset).cfg = s.cfg := rfl
@[simp] theorem applyReset_cmd (s : State) : (s.applyReset).cmd = 0 := rfl
@[simp] theorem applyReset_busy (s : State) : (s.applyReset).busy = false := rfl
@[simp] theorem applyReset_err (s : State) : (s.applyReset).err = .none := rfl
@[simp] theorem applyReset_ctrHi (s : State) : (s.applyReset).ctrHi = 0 := rfl
@[simp] theorem applyReset_ctrLo (s : State) : (s.applyReset).ctrLo = 0 := rfl
@[simp] theorem applyReset_keyLen (s : State) : (s.applyReset).keyLen = 0 := rfl
@[simp] theorem applyReset_msgLen (s : State) : (s.applyReset).msgLen = 0 := rfl
@[simp] theorem applyReset_txtLen (s : State) : (s.applyReset).txtLen = 0 := rfl
@[simp] theorem applyReset_offset (s : State) : (s.applyReset).offset = 0 := rfl
@[simp] theorem applyReset_trunc (s : State) : (s.applyReset).trunc = 0 := rfl
@[simp] theorem applyReset_digest (s : State) : (s.applyReset).digest = [] := rfl
@[simp] theorem applyReset_keymem (s : State) : (s.applyReset).keymem = [] := rfl
@[simp] theorem applyReset_msgmem (s : State) : (s.applyReset).msgmem = [] := rfl
@[simp] theorem applyReset_txtmem (s : State) : (s.applyReset).txtmem = [] := rfl
@[simp] theorem applyReset_host_actions (s : State) : (s.applyReset).host.actions = s.host.actions := rfl
@[simp] theorem applyReset_host_reads (s : State) : (s.applyReset).host.reads = s.host.reads := rfl
@[simp] theorem applyReset_host_window (s : State) : (s.applyReset).host.window = false := rfl
@[simp] theorem applyReset_host_delay (s : State) : (s.applyReset).host.delay = 0 := rfl
@[simp] theorem applyReset_host_issues (s : State) : (s.applyReset).host.issues = s.host.issues := rfl

/-! ### A value read -/

@[simp] theorem record_cfg (s : State) (v : PortValue) : (s.record v).cfg = s.cfg := rfl
@[simp] theorem record_cmd (s : State) (v : PortValue) : (s.record v).cmd = s.cmd := rfl
@[simp] theorem record_busy (s : State) (v : PortValue) : (s.record v).busy = s.busy := rfl
@[simp] theorem record_err (s : State) (v : PortValue) : (s.record v).err = s.err := rfl
@[simp] theorem record_ctrHi (s : State) (v : PortValue) : (s.record v).ctrHi = s.ctrHi := rfl
@[simp] theorem record_ctrLo (s : State) (v : PortValue) : (s.record v).ctrLo = s.ctrLo := rfl
@[simp] theorem record_keyLen (s : State) (v : PortValue) : (s.record v).keyLen = s.keyLen := rfl
@[simp] theorem record_msgLen (s : State) (v : PortValue) : (s.record v).msgLen = s.msgLen := rfl
@[simp] theorem record_txtLen (s : State) (v : PortValue) : (s.record v).txtLen = s.txtLen := rfl
@[simp] theorem record_offset (s : State) (v : PortValue) : (s.record v).offset = s.offset := rfl
@[simp] theorem record_trunc (s : State) (v : PortValue) : (s.record v).trunc = s.trunc := rfl
@[simp] theorem record_digest (s : State) (v : PortValue) : (s.record v).digest = s.digest := rfl
@[simp] theorem record_keymem (s : State) (v : PortValue) : (s.record v).keymem = s.keymem := rfl
@[simp] theorem record_msgmem (s : State) (v : PortValue) : (s.record v).msgmem = s.msgmem := rfl
@[simp] theorem record_txtmem (s : State) (v : PortValue) : (s.record v).txtmem = s.txtmem := rfl
@[simp] theorem record_host_actions (s : State) (v : PortValue) : (s.record v).host.actions = s.host.actions := rfl
@[simp] theorem record_host_reads (s : State) (v : PortValue) : (s.record v).host.reads = s.host.reads ++ [v] := rfl
@[simp] theorem record_host_window (s : State) (v : PortValue) : (s.record v).host.window = s.host.window := rfl
@[simp] theorem record_host_delay (s : State) (v : PortValue) : (s.record v).host.delay = s.host.delay := rfl
@[simp] theorem record_host_issues (s : State) (v : PortValue) : (s.record v).host.issues = s.host.issues := rfl

/-! ### The next action taken -/

@[simp] theorem popAction_cfg (s : State) (rest : List HostAction) : (s.popAction rest).cfg = s.cfg := rfl
@[simp] theorem popAction_cmd (s : State) (rest : List HostAction) : (s.popAction rest).cmd = s.cmd := rfl
@[simp] theorem popAction_busy (s : State) (rest : List HostAction) : (s.popAction rest).busy = s.busy := rfl
@[simp] theorem popAction_err (s : State) (rest : List HostAction) : (s.popAction rest).err = s.err := rfl
@[simp] theorem popAction_ctrHi (s : State) (rest : List HostAction) : (s.popAction rest).ctrHi = s.ctrHi := rfl
@[simp] theorem popAction_ctrLo (s : State) (rest : List HostAction) : (s.popAction rest).ctrLo = s.ctrLo := rfl
@[simp] theorem popAction_keyLen (s : State) (rest : List HostAction) : (s.popAction rest).keyLen = s.keyLen := rfl
@[simp] theorem popAction_msgLen (s : State) (rest : List HostAction) : (s.popAction rest).msgLen = s.msgLen := rfl
@[simp] theorem popAction_txtLen (s : State) (rest : List HostAction) : (s.popAction rest).txtLen = s.txtLen := rfl
@[simp] theorem popAction_offset (s : State) (rest : List HostAction) : (s.popAction rest).offset = s.offset := rfl
@[simp] theorem popAction_trunc (s : State) (rest : List HostAction) : (s.popAction rest).trunc = s.trunc := rfl
@[simp] theorem popAction_digest (s : State) (rest : List HostAction) : (s.popAction rest).digest = s.digest := rfl
@[simp] theorem popAction_keymem (s : State) (rest : List HostAction) : (s.popAction rest).keymem = s.keymem := rfl
@[simp] theorem popAction_msgmem (s : State) (rest : List HostAction) : (s.popAction rest).msgmem = s.msgmem := rfl
@[simp] theorem popAction_txtmem (s : State) (rest : List HostAction) : (s.popAction rest).txtmem = s.txtmem := rfl
@[simp] theorem popAction_host_actions (s : State) (rest : List HostAction) : (s.popAction rest).host.actions = rest := rfl
@[simp] theorem popAction_host_reads (s : State) (rest : List HostAction) : (s.popAction rest).host.reads = s.host.reads := rfl
@[simp] theorem popAction_host_window (s : State) (rest : List HostAction) : (s.popAction rest).host.window = s.host.window := rfl
@[simp] theorem popAction_host_delay (s : State) (rest : List HostAction) : (s.popAction rest).host.delay = s.host.delay - 1 := rfl
@[simp] theorem popAction_host_issues (s : State) (rest : List HostAction) : (s.popAction rest).host.issues = s.host.issues := rfl

/-! ### Actions put before the others -/

@[simp] theorem pushActions_cfg (s : State) (as : List HostAction) : (s.pushActions as).cfg = s.cfg := rfl
@[simp] theorem pushActions_cmd (s : State) (as : List HostAction) : (s.pushActions as).cmd = s.cmd := rfl
@[simp] theorem pushActions_busy (s : State) (as : List HostAction) : (s.pushActions as).busy = s.busy := rfl
@[simp] theorem pushActions_err (s : State) (as : List HostAction) : (s.pushActions as).err = s.err := rfl
@[simp] theorem pushActions_ctrHi (s : State) (as : List HostAction) : (s.pushActions as).ctrHi = s.ctrHi := rfl
@[simp] theorem pushActions_ctrLo (s : State) (as : List HostAction) : (s.pushActions as).ctrLo = s.ctrLo := rfl
@[simp] theorem pushActions_keyLen (s : State) (as : List HostAction) : (s.pushActions as).keyLen = s.keyLen := rfl
@[simp] theorem pushActions_msgLen (s : State) (as : List HostAction) : (s.pushActions as).msgLen = s.msgLen := rfl
@[simp] theorem pushActions_txtLen (s : State) (as : List HostAction) : (s.pushActions as).txtLen = s.txtLen := rfl
@[simp] theorem pushActions_offset (s : State) (as : List HostAction) : (s.pushActions as).offset = s.offset := rfl
@[simp] theorem pushActions_trunc (s : State) (as : List HostAction) : (s.pushActions as).trunc = s.trunc := rfl
@[simp] theorem pushActions_digest (s : State) (as : List HostAction) : (s.pushActions as).digest = s.digest := rfl
@[simp] theorem pushActions_keymem (s : State) (as : List HostAction) : (s.pushActions as).keymem = s.keymem := rfl
@[simp] theorem pushActions_msgmem (s : State) (as : List HostAction) : (s.pushActions as).msgmem = s.msgmem := rfl
@[simp] theorem pushActions_txtmem (s : State) (as : List HostAction) : (s.pushActions as).txtmem = s.txtmem := rfl
@[simp] theorem pushActions_host_actions (s : State) (as : List HostAction) : (s.pushActions as).host.actions = as ++ s.host.actions := rfl
@[simp] theorem pushActions_host_reads (s : State) (as : List HostAction) : (s.pushActions as).host.reads = s.host.reads := rfl
@[simp] theorem pushActions_host_window (s : State) (as : List HostAction) : (s.pushActions as).host.window = s.host.window := rfl
@[simp] theorem pushActions_host_delay (s : State) (as : List HostAction) : (s.pushActions as).host.delay = s.host.delay := rfl
@[simp] theorem pushActions_host_issues (s : State) (as : List HostAction) : (s.pushActions as).host.issues = s.host.issues := rfl

/-! ### A read of STATUS -/

@[simp] theorem readStatus_cfg (s : State) : (s.readStatus).cfg = s.cfg := rfl
@[simp] theorem readStatus_cmd (s : State) : (s.readStatus).cmd = s.cmd := rfl
@[simp] theorem readStatus_busy (s : State) : (s.readStatus).busy = s.busy := rfl
@[simp] theorem readStatus_err (s : State) : (s.readStatus).err = s.err := rfl
@[simp] theorem readStatus_ctrHi (s : State) : (s.readStatus).ctrHi = s.ctrHi := rfl
@[simp] theorem readStatus_ctrLo (s : State) : (s.readStatus).ctrLo = s.ctrLo := rfl
@[simp] theorem readStatus_keyLen (s : State) : (s.readStatus).keyLen = s.keyLen := rfl
@[simp] theorem readStatus_msgLen (s : State) : (s.readStatus).msgLen = s.msgLen := rfl
@[simp] theorem readStatus_txtLen (s : State) : (s.readStatus).txtLen = s.txtLen := rfl
@[simp] theorem readStatus_offset (s : State) : (s.readStatus).offset = s.offset := rfl
@[simp] theorem readStatus_trunc (s : State) : (s.readStatus).trunc = s.trunc := rfl
@[simp] theorem readStatus_digest (s : State) : (s.readStatus).digest = s.digest := rfl
@[simp] theorem readStatus_keymem (s : State) : (s.readStatus).keymem = s.keymem := rfl
@[simp] theorem readStatus_msgmem (s : State) : (s.readStatus).msgmem = s.msgmem := rfl
@[simp] theorem readStatus_txtmem (s : State) : (s.readStatus).txtmem = s.txtmem := rfl
@[simp] theorem readStatus_host_actions (s : State) : (s.readStatus).host.actions = s.host.actions := rfl
@[simp] theorem readStatus_host_reads (s : State) : (s.readStatus).host.reads = s.host.reads ++ [.word s.status] := rfl
@[simp] theorem readStatus_host_window (s : State) : (s.readStatus).host.window = (s.busy && s.host.window) := rfl
@[simp] theorem readStatus_host_delay (s : State) : (s.readStatus).host.delay = s.host.delay := rfl
@[simp] theorem readStatus_host_issues (s : State) : (s.readStatus).host.issues = s.host.issues := rfl

/-! ### A buffer replaced -/

@[simp] theorem buffer_setBuffer (s : State) (b : Buf) (m : Memory) : (s.setBuffer b m).buffer b = m := by
  cases b <;> rfl

theorem buffer_setBuffer_ne (s : State) {b b' : Buf} (m : Memory) (h : b' ≠ b) :
    (s.setBuffer b m).buffer b' = s.buffer b' := by
  cases b <;> cases b' <;> first | rfl | exact absurd rfl h

@[simp] theorem setBuffer_cfg (s : State) (b : Buf) (m : Memory) : (s.setBuffer b m).cfg = s.cfg := by
  cases b <;> rfl

@[simp] theorem setBuffer_host (s : State) (b : Buf) (m : Memory) : (s.setBuffer b m).host = s.host := by
  cases b <;> rfl

@[simp] theorem setBuffer_busy (s : State) (b : Buf) (m : Memory) : (s.setBuffer b m).busy = s.busy := by
  cases b <;> rfl

@[simp] theorem setBuffer_err (s : State) (b : Buf) (m : Memory) : (s.setBuffer b m).err = s.err := by
  cases b <;> rfl

@[simp] theorem setBuffer_readReg (s : State) (b : Buf) (m : Memory) (r : Reg) :
    (s.setBuffer b m).readReg r = s.readReg r := by
  cases b <;> cases r <;> rfl

end Sys2Proof.Machine.State
end

