-- ==== Sys2Proof/Laws/Commands.lean ====
section
/-! SUPPORT. What a command's completion does, said once: it always answers a next state, which is the
command's writes, or the error and nothing else. -/

namespace Sys2Proof.Machine

/-- The result of each command. -/
def commandResult : Instr → State → Except ErrCode State
  | .ctrser => ctrserResult
  | .hmac => hmacResult
  | .doff => doffResult
  | .trunc => truncResult
  | .b32dec => b32decResult
  | .b32enc => b32encResult

/-- Every command completes. -/
theorem exec_eq (i : Instr) (s : State) : exec i s = .next (s.conclude (commandResult i s)) := by
  cases i <;> rfl

theorem eq_of_exec {i : Instr} {s t : State} (h : exec i s = .next t) :
    t = s.conclude (commandResult i s) := by
  rw [exec_eq] at h
  exact (Host.Outcome.next.inj h).symm

@[simp] theorem conclude_ok (s t : State) : s.conclude (.ok t) = t.finish .none := rfl

@[simp] theorem conclude_error (s : State) (e : ErrCode) : s.conclude (.error e) = s.raise e := rfl

/-! ### The error each command reports -/

/-- The error a command reports in a state, by the conditions of the rules (60_exceptions R181, R184,
R185): none where it succeeds. -/
def commandError (i : Instr) (s : State) : ErrCode :=
  match i with
  | .ctrser => .none
  | .hmac => if s.cfg.keyCap < s.keyLen.toNat ∨ s.cfg.msgCap < s.msgLen.toNat then .badOperand else .none
  | .doff => .none
  | .trunc => .none
  | .b32dec =>
    if s.cfg.txtCap < s.txtLen.toNat then .badOperand
    else if s.txtLen.toNat % 8 ≠ 0 then .invalidEncoding
    else if textValues s.txtBytes = none then .invalidCharacter
    else .none
  | .b32enc =>
    if s.cfg.keyCap < s.keyLen.toNat ∨ s.keyLen.toNat % 5 ≠ 0 then .badOperand else .none

/-- The state a command leaves when it succeeds, before BUSY and ERR are written (10_state R25, the column
of writes). -/
def commandWrites (i : Instr) (s : State) : State :=
  match i with
  | .ctrser => { s with msgmem := Memory.writeBytes s.msgmem 0 (toBe s.counter 8), msgLen := 8 }
  | .hmac => { s with digest := Memory.writeBytes s.digest 0 (hmacSha1 s.keyBytes s.msgBytes) }
  | .doff => { s with offset := (s.digestByte 19 &&& 0x0F).setWidth 4 }
  | .trunc => { s with trunc := windowValue s s.offset.toNat }
  | .b32dec =>
    { s with
      keymem := Memory.writeBytes s.keymem 0
        (decodeGroups (s.txtLen.toNat / 8) ((textValues s.txtBytes).getD []))
      keyLen := BitVec.ofNat 32 (5 * s.txtLen.toNat / 8) }
  | .b32enc =>
    { s with
      txtmem := Memory.writeBytes s.txtmem 0 (encodeGroups (s.keyLen.toNat / 5) s.keyBytes)
      txtLen := BitVec.ofNat 32 (8 * s.keyLen.toNat / 5) }

theorem commandResult_eq (i : Instr) (s : State) :
    commandResult i s =
      if commandError i s = .none then .ok (commandWrites i s) else .error (commandError i s) := by
  cases i
  case ctrser => rfl
  case doff => rfl
  case trunc => rfl
  case hmac =>
    simp only [commandResult, hmacResult, commandError, commandWrites]
    by_cases hk : s.cfg.keyCap < s.keyLen.toNat <;> by_cases hm : s.cfg.msgCap < s.msgLen.toNat <;>
      simp [hk, hm]
  case b32dec =>
    simp only [commandResult, b32decResult, commandError, commandWrites]
    split_ifs with h₁ h₂ h₃ <;> simp_all
    cases h : textValues s.txtBytes <;> simp_all
  case b32enc =>
    simp only [commandResult, b32encResult, commandError, commandWrites]
    by_cases hk : s.cfg.keyCap < s.keyLen.toNat <;> by_cases hm : s.keyLen.toNat % 5 = 0 <;>
      simp [hk, hm]

/-- What a completion leaves: the command's writes with ERR = 0, or the error and nothing else. -/
theorem exec_cases (i : Instr) (s : State) :
    (commandError i s = .none ∧ exec i s = .next ((commandWrites i s).finish .none)) ∨
      (commandError i s ≠ .none ∧ exec i s = .next (s.raise (commandError i s))) := by
  rw [exec_eq, commandResult_eq]
  by_cases h : commandError i s = .none <;> simp [h]

/-- `exec` by the error and the writes of its command. -/
theorem exec_next (i : Instr) (s : State) :
    exec i s = .next (if commandError i s = .none then (commandWrites i s).finish .none
      else s.raise (commandError i s)) := by
  rcases exec_cases i s with ⟨h, he⟩ | ⟨h, he⟩ <;> simp [h, he]

/-! ### What no command touches -/

@[simp] theorem commandWrites_cfg (i : Instr) (s : State) : (commandWrites i s).cfg = s.cfg := by
  cases i <;> simp only [commandWrites]

@[simp] theorem commandWrites_cmd (i : Instr) (s : State) : (commandWrites i s).cmd = s.cmd := by
  cases i <;> simp only [commandWrites]

@[simp] theorem commandWrites_ctrHi (i : Instr) (s : State) : (commandWrites i s).ctrHi = s.ctrHi := by
  cases i <;> simp only [commandWrites]

@[simp] theorem commandWrites_ctrLo (i : Instr) (s : State) : (commandWrites i s).ctrLo = s.ctrLo := by
  cases i <;> simp only [commandWrites]

@[simp] theorem commandWrites_host (i : Instr) (s : State) : (commandWrites i s).host = s.host := by
  cases i <;> simp only [commandWrites]

theorem commandError_host (i : Instr) (s : State) (hs : HostSide) :
    commandError i { s with host := hs } = commandError i s := by
  cases i <;> rfl

theorem commandWrites_with_host (i : Instr) (s : State) (hs : HostSide) :
    commandWrites i { s with host := hs } = { commandWrites i s with host := hs } := by
  cases i <;>
    simp only [commandWrites, State.counter, State.keyBytes, State.msgBytes, State.txtBytes,
      State.digestByte, windowValue]

/-- A command neither reads nor writes the host's side: it may be changed before or after. -/
theorem exec_host {i : Instr} {s t : State} (h : exec i s = .next t) (hs : HostSide) :
    exec i { s with host := hs } = .next { t with host := hs } := by
  rw [exec_next] at h ⊢
  rw [commandError_host, commandWrites_with_host, ← Host.Outcome.next.inj h]
  split_ifs <;> simp only [State.finish, State.raise]

/-- No command reads CMD, BUSY or ERR once it is decoded: the latch may stand before it. -/
theorem commandError_latch (i : Instr) (s : State) (v : Word) :
    commandError i (s.latch v) = commandError i s := by
  cases i <;> rfl

theorem commandWrites_latch (i : Instr) (s : State) (v : Word) :
    commandWrites i (s.latch v) = (commandWrites i s).latch v := by
  cases i <;>
    simp only [commandWrites, State.latch, State.counter, State.keyBytes, State.msgBytes, State.txtBytes,
      State.digestByte, windowValue]

/-! ### A command that succeeds, and one that does not -/

theorem exec_of_success {i : Instr} {s : State} (h : commandError i s = .none) :
    exec i s = .next ((commandWrites i s).finish .none) := by
  rw [exec_next, if_pos h]

theorem exec_of_error {i : Instr} {s : State} {e : ErrCode} (h : commandError i s = e) (he : e ≠ .none) :
    exec i s = .next (s.raise e) := by
  rw [exec_next, if_neg (by rw [h]; exact he), h]

/-- The error a command leaves in ERR. -/
theorem exec_err {i : Instr} {s t : State} (h : exec i s = .next t) : t.err = commandError i s := by
  rcases exec_cases i s with ⟨he, hx⟩ | ⟨-, hx⟩ <;> obtain rfl := Host.Outcome.next.inj (hx.symm.trans h)
  · simp [he]
  · simp

/-- The character that makes a text undecodable, by its index. -/
theorem textValues_txtBytes_eq_none {s : State} :
    textValues s.txtBytes = none ↔ ∃ k < s.txtLen.toNat, b32val (Memory.read s.txtmem k) = none := by
  rw [textValues_eq_none]
  simp only [State.txtBytes, Memory.readBytes, List.mem_map, List.mem_range]
  constructor
  · rintro ⟨c, ⟨k, hk, rfl⟩, h⟩
    exact ⟨k, hk, by simpa using h⟩
  · rintro ⟨k, hk, h⟩
    exact ⟨_, ⟨k, hk, rfl⟩, by simpa using h⟩

theorem hmac_success {s : State} :
    commandError .hmac s = .none ↔ s.keyLen.toNat ≤ s.cfg.keyCap ∧ s.msgLen.toNat ≤ s.cfg.msgCap := by
  simp only [commandError]
  split_ifs with h <;> simp <;> omega

theorem b32dec_success {s : State} :
    commandError .b32dec s = .none ↔
      s.txtLen.toNat ≤ s.cfg.txtCap ∧ s.txtLen.toNat % 8 = 0 ∧ ∃ vs, textValues s.txtBytes = some vs := by
  simp only [commandError]
  by_cases h₁ : s.cfg.txtCap < s.txtLen.toNat
  · simp [h₁]
  · by_cases h₂ : s.txtLen.toNat % 8 = 0
    · cases h₃ : textValues s.txtBytes <;> simp [h₁, h₂] <;> omega
    · simp [h₁, h₂]

theorem b32enc_success {s : State} :
    commandError .b32enc s = .none ↔ s.keyLen.toNat ≤ s.cfg.keyCap ∧ s.keyLen.toNat % 5 = 0 := by
  simp only [commandError]
  split_ifs with h <;> simp <;> omega

/-- BUSY and ERR are no operand of a command. -/
theorem commandError_finish (i : Instr) (s : State) (e : ErrCode) :
    commandError i (s.finish e) = commandError i s := by
  cases i <;> rfl

theorem commandWrites_finish (i : Instr) (s : State) (e : ErrCode) :
    commandWrites i (s.finish e) = (commandWrites i s).finish e := by
  cases i <;>
    simp only [commandWrites, State.finish, State.counter, State.keyBytes, State.msgBytes, State.txtBytes,
      State.digestByte, windowValue]

/-! ### The canonical form is kept -/

theorem commandWrites_sound {i : Instr} {s : State} (hs : s.sound) (he : commandError i s = .none) :
    (commandWrites i s).sound := by
  obtain ⟨hc, hd, hk, hm, ht⟩ := hs
  have hsz : s.cfg.sizesLegal = true := by
    simp only [Config.legal, Bool.and_eq_true] at hc
    exact hc.1
  simp only [Config.sizesLegal, Config.txtCap, Bool.and_eq_true, beq_iff_eq, decide_eq_true_eq] at hsz
  cases i <;> simp only [State.sound, commandWrites]
  case ctrser => exact ⟨hc, hd, hk, Memory.wf_writeBytes hm (by simp; omega), ht⟩
  case hmac => exact ⟨hc, Memory.wf_writeBytes hd (by simp), hk, hm, ht⟩
  case doff => exact ⟨hc, hd, hk, hm, ht⟩
  case trunc => exact ⟨hc, hd, hk, hm, ht⟩
  case b32dec =>
    refine ⟨hc, hd, Memory.wf_writeBytes hk ?_, hm, ht⟩
    simp only [commandError] at he
    split_ifs at he with h₁
    simp only [Config.txtCap] at h₁
    simp
    omega
  case b32enc =>
    refine ⟨hc, hd, hk, hm, Memory.wf_writeBytes ht ?_⟩
    simp only [commandError] at he
    split_ifs at he with h₁
    simp [Config.txtCap]
    omega

theorem exec_sound {i : Instr} {s t : State} (hs : s.sound) (h : exec i s = .next t) : t.sound := by
  rcases exec_cases i s with ⟨he, hx⟩ | ⟨-, hx⟩
  · obtain rfl := Host.Outcome.next.inj (hx.symm.trans h)
    exact commandWrites_sound hs he
  · obtain rfl := Host.Outcome.next.inj (hx.symm.trans h)
    exact hs

end Sys2Proof.Machine
end

