-- ==== Sys2Proof/Laws/Decode.lean ====
section
/-! SUPPORT. What the decoder answers, said once: a word is a command's exactly when it is that command's
own word. -/

namespace Sys2Proof

@[simp] theorem decode_encode (i : Instr) : decode (encode i) = .ok i := by cases i <;> rfl

theorem encode_injective {i j : Instr} (h : encode i = encode j) : i = j := by
  have hd := congrArg decode h
  rw [decode_encode, decode_encode] at hd
  exact Except.ok.inj hd

/-- A row is selected by its own word alone: every mask is all ones. -/
theorem selects_iff {r : OpcodeRow} (h : r.mask = 0xFFFFFFFF#32) (w : Word) :
    r.selects w = true ↔ w = r.pattern := by
  have hm : w &&& 0xFFFFFFFF#32 = w := by rw [show (0xFFFFFFFF#32 : Word) = BitVec.allOnes 32 by rfl, BitVec.and_allOnes]
  simp [OpcodeRow.selects, h, hm]

theorem eq_encode_of_decode {w : Word} {i : Instr} (h : decode w = .ok i) : w = encode i := by
  unfold decode at h
  split at h
  · next r hr =>
    have hmem := List.mem_of_find?_eq_some hr
    have hrow : r.mask = 0xFFFFFFFF#32 ∧ r.pattern = encode r.instr := by
      have all : ∀ r ∈ opcodeMap, r.mask = 0xFFFFFFFF#32 ∧ r.pattern = encode r.instr := by decide
      exact all r hmem
    have hsel : r.selects w = true := by simpa using List.find?_some hr
    have hw := (selects_iff hrow.1 w).1 hsel
    rw [hw, hrow.2, Except.ok.inj h]
  · simp at h

theorem decode_error {w : Word} {e : Reject} (h : decode w = .error e) (i : Instr) : w ≠ encode i := by
  rintro rfl
  simp at h

end Sys2Proof
end

