-- ==== Sys2Proof/Laws/PerInstr.lean ====
section
/-! SUPPORT. Laws made instruction by instruction: the word of each command in format C (30_encoding R60 to
R62). -/

namespace Sys2Proof.Laws.TableWord

/-- The word of a command has RSV zero and its own OPC, passes both checks on a word, and decodes to the
command; the command itself is well formed. -/
def Statement (i : Instr) : Prop :=
  i.wellFormed = true ∧ (encode i).extractLsb' 8 24 = 0#24 ∧ (encode i).extractLsb' 0 8 = opcode i ∧
    wordWellFormed (encode i) = true ∧ decode (encode i) = .ok i

theorem ctrser : Statement .ctrser := ⟨rfl, rfl, rfl, rfl, rfl⟩

theorem hmac : Statement .hmac := ⟨rfl, rfl, rfl, rfl, rfl⟩

theorem doff : Statement .doff := ⟨rfl, rfl, rfl, rfl, rfl⟩

theorem trunc : Statement .trunc := ⟨rfl, rfl, rfl, rfl, rfl⟩

theorem b32dec : Statement .b32dec := ⟨rfl, rfl, rfl, rfl, rfl⟩

theorem b32enc : Statement .b32enc := ⟨rfl, rfl, rfl, rfl, rfl⟩

end Sys2Proof.Laws.TableWord
end

