-- ==== Sys2Proof/Laws/Port.lean ====
section
/-! SUPPORT. The map of the port: locations and offsets correspond one to one (20_memory R47), and what a
store to a location changes. -/

namespace Sys2Proof.Machine

theorem regOfIndex_index (r : Reg) : regOfIndex r.index = some r := by cases r <;> rfl

theorem index_lt (r : Reg) : r.index < 9 := by cases r <;> decide

theorem index_of_regOfIndex {i : Nat} {r : Reg} (h : regOfIndex i = some r) : r.index = i := by
  unfold regOfIndex at h
  split at h <;> simp_all <;> subst h <;> rfl

/-- The offset of a register's location. -/
theorem locate_reg (c : Config) (r : Reg) : locate c (4 * r.index) = some (.reg r) := by
  have := index_lt r
  unfold locate
  rw [if_pos (by unfold registersEnd; omega), if_pos (by omega), Nat.mul_div_cancel_left _ (by omega),
    regOfIndex_index]
  rfl

/-- What legal parameters say of the map. -/
theorem mapLegal_of_legal {c : Config} (h : c.legal = true) :
    (0x54 ≤ c.keyBase ∧ 0x54 ≤ c.msgBase ∧ 0x54 ≤ c.txtBase) ∧
      (c.keyBase + c.keyCap ≤ c.msgBase ∨ c.msgBase + c.msgCap ≤ c.keyBase) ∧
      (c.keyBase + c.keyCap ≤ c.txtBase ∨ c.txtBase + c.txtCap ≤ c.keyBase) ∧
      (c.msgBase + c.msgCap ≤ c.txtBase ∨ c.txtBase + c.txtCap ≤ c.msgBase) := by
  simp only [Config.legal, Config.mapLegal, Config.apart, Bool.and_eq_true, Bool.or_eq_true,
    decide_eq_true_eq] at h
  tauto

/-- What legal parameters say of the capacities (00_scope R3). -/
theorem sizesLegal_of_legal {c : Config} (h : c.legal = true) :
    c.keyCap % 5 = 0 ∧ 80 ≤ c.keyCap ∧ 73 ≤ c.msgCap ∧ c.keyCap < 2 ^ 32 ∧ c.msgCap < 2 ^ 32 ∧
      c.txtCap < 2 ^ 32 := by
  simp only [Config.legal, Config.sizesLegal, Bool.and_eq_true, beq_iff_eq, decide_eq_true_eq] at h
  tauto

/-- The offset of a buffer byte's location, for legal parameters. -/
theorem locate_byte {c : Config} (hc : c.legal = true) (b : Buf) {k : Nat} (hk : k < b.cap c) :
    locate c (b.base c + k) = some (.byte b k) := by
  obtain ⟨hb, h₁, h₂, h₃⟩ := mapLegal_of_legal hc
  have hr : ¬b.base c + k < registersEnd := by
    cases b <;> simp only [Buf.base, registersEnd] <;> omega
  unfold locate
  rw [if_neg hr]
  have not_holds : ∀ b' : Buf, (b.base c + k < b'.base c ∨ b'.base c + b'.cap c ≤ b.base c + k) →
      b'.holds c (b.base c + k) = false := fun b' h => by
    simp only [Buf.holds, Bool.and_eq_false_iff, decide_eq_false_iff_not]
    omega
  have hd : b ≠ .digest → Buf.holds c .digest (b.base c + k) = false := fun h => not_holds _ (by
    cases b <;> simp only [Buf.base, Buf.cap] at * <;> first | omega | exact absurd rfl h)
  have hkey : b = .msgmem ∨ b = .txtmem → Buf.holds c .keymem (b.base c + k) = false := fun h =>
    not_holds _ (by rcases h with rfl | rfl <;> simp only [Buf.base, Buf.cap] at * <;> omega)
  have hmsg : b = .txtmem → Buf.holds c .msgmem (b.base c + k) = false := fun h =>
    not_holds _ (by subst h; simp only [Buf.base, Buf.cap] at *; omega)
  have hown : Buf.holds c b (b.base c + k) = true := by simp [Buf.holds, hk]
  cases b <;> simp [List.find?, hown, hd, hkey, hmsg]

/-- A location found at an offset exists and has that offset. -/
theorem of_locate {c : Config} {addr : Nat} {l : Loc} (h : locate c addr = some l) :
    l.exists c = true ∧ l.offset c = addr := by
  unfold locate at h
  split at h
  · split at h
    · next h4 =>
      obtain ⟨r, hr, rfl⟩ := Option.map_eq_some_iff.1 h
      refine ⟨rfl, ?_⟩
      simp only [Loc.offset, index_of_regOfIndex hr]
      omega
    · simp at h
  · obtain ⟨b, hb, rfl⟩ := Option.map_eq_some_iff.1 h
    have hh : b.holds c addr = true := by simpa using List.find?_some hb
    simp only [Buf.holds, Bool.and_eq_true, decide_eq_true_eq] at hh
    refine ⟨?_, ?_⟩
    · simp only [Loc.exists, decide_eq_true_eq]
      omega
    · simp only [Loc.offset]
      omega

/-! ### Buffers by name -/

@[simp] theorem buffer_digest (s : State) : s.buffer .digest = s.digest := rfl
@[simp] theorem buffer_keymem (s : State) : s.buffer .keymem = s.keymem := rfl
@[simp] theorem buffer_msgmem (s : State) : s.buffer .msgmem = s.msgmem := rfl
@[simp] theorem buffer_txtmem (s : State) : s.buffer .txtmem = s.txtmem := rfl

/-- The canonical form, buffer by buffer. -/
theorem sound_iff (s : State) :
    s.sound ↔ s.cfg.legal = true ∧ ∀ b : Buf, Memory.wf (b.cap s.cfg) (s.buffer b) := by
  constructor
  · rintro ⟨hc, hd, hk, hm, ht⟩
    exact ⟨hc, fun b => by cases b <;> assumption⟩
  · rintro ⟨hc, h⟩
    exact ⟨hc, h .digest, h .keymem, h .msgmem, h .txtmem⟩

/-- What a byte store does to the bytes of the machine. -/
theorem byteAt_setByte {s : State} (hs : s.sound) (b b' : Buf) (k k' : Nat) (v : Byte) :
    (s.setByte b k v).byteAt b' k' = if b' = b ∧ k' = k then v else s.byteAt b' k' := by
  have hw := ((sound_iff s).1 hs).2
  unfold State.byteAt State.setByte
  by_cases hb : b' = b
  · subst hb
    rw [State.buffer_setBuffer, Memory.read_write (hw b')]
    simp
  · rw [State.buffer_setBuffer_ne s _ hb]
    simp [hb]

theorem setByte_sound {s : State} (hs : s.sound) {b : Buf} {k : Nat} (hk : k < b.cap s.cfg) (v : Byte) :
    (s.setByte b k v).sound := by
  have hw := (sound_iff s).1 hs
  refine (sound_iff _).2 ⟨by simpa [State.setByte] using hw.1, fun b' => ?_⟩
  by_cases hb : b' = b
  · subst hb
    simpa [State.setByte] using Memory.wf_write (hw.2 b') hk v
  · simpa [State.setByte, State.buffer_setBuffer_ne s _ hb] using hw.2 b'

theorem writeReg_sound {s : State} (hs : s.sound) (r : Reg) (v : Word) : (s.writeReg r v).sound := by
  cases r <;> exact hs

/-- A store to a location that exists keeps the canonical form. -/
theorem store_sound {s : State} (hs : s.sound) {l : Loc} (hl : l.exists s.cfg = true) (v : Word) :
    (s.store l v).sound := by
  cases l with
  | reg r => exact writeReg_sound hs r v
  | byte b k => exact setByte_sound hs (by simpa [Loc.exists] using hl) _

theorem applyReset_sound {s : State} (hs : s.sound) : s.applyReset.sound :=
  ⟨hs.1, Memory.wf_nil _, Memory.wf_nil _, Memory.wf_nil _, Memory.wf_nil _⟩

end Sys2Proof.Machine
end

