-- ==== Sys2Proof/Laws/Step.lean ====
section
/-! SUPPORT. What a step can do, said once: the core completes, the host acts, or the run has ended. -/

namespace Sys2Proof.Machine

/-! ### Completion -/

/-- A completion is a command's, or the illegal word's. -/
theorem complete_cases {s t : State} (h : complete s = .next t) :
    (∃ i, s.cmd = encode i ∧ exec i s = .next t) ∨
      ((∀ i, s.cmd ≠ encode i) ∧ t = s.raise .illegalCommand) := by
  unfold complete at h
  split at h
  · next i hi => exact .inl ⟨i, eq_encode_of_decode hi, h⟩
  · next e he => exact .inr ⟨decode_error he, (Host.Outcome.next.inj h).symm⟩

/-- The core's step always has a next state. -/
theorem complete_next (s : State) : ∃ t, complete s = .next t := by
  unfold complete
  split
  · exact ⟨_, exec_eq _ _⟩
  · exact ⟨_, rfl⟩

theorem complete_of_cmd {s : State} {i : Instr} (h : s.cmd = encode i) : complete s = exec i s := by
  simp [complete, h]

theorem complete_busy {s t : State} (h : complete s = .next t) : t.busy = false := by
  rcases complete_cases h with ⟨i, -, hi⟩ | ⟨-, rfl⟩
  · rcases exec_cases i s with ⟨-, hx⟩ | ⟨-, hx⟩ <;>
      obtain rfl := Host.Outcome.next.inj (hx.symm.trans hi) <;> rfl
  · rfl

theorem complete_host {s t : State} (h : complete s = .next t) :
    t.host = s.host ∧ t.cmd = s.cmd ∧ t.cfg = s.cfg := by
  rcases complete_cases h with ⟨i, -, hi⟩ | ⟨-, rfl⟩
  · rcases exec_cases i s with ⟨-, hx⟩ | ⟨-, hx⟩ <;>
      obtain rfl := Host.Outcome.next.inj (hx.symm.trans hi) <;> simp
  · simp

theorem complete_sound {s t : State} (hs : s.sound) (h : complete s = .next t) : t.sound := by
  rcases complete_cases h with ⟨i, -, hi⟩ | ⟨-, rfl⟩
  · exact exec_sound hs hi
  · exact hs

/-! ### The host's actions -/

/-- An access that has a next state is one of a location at its width, and is that location's. -/
theorem atLocation_cases {s t : State} {addr n : Nat} {act : Loc → Host.Outcome State Fault Refusal}
    (h : atLocation s addr n act = .next t) :
    ∃ l, locate s.cfg addr = some l ∧ l.width = n ∧ act l = .next t := by
  unfold atLocation at h
  split at h
  · next l hl =>
    split at h
    · next hn => exact ⟨l, hl, hn, h⟩
    · simp at h
  · simp at h

theorem portRead_cases {s t : State} {l : Loc} (h : portRead s l = .next t) :
    (l = .reg .status ∧ t = s.readStatus) ∨
      (l ≠ .reg .status ∧ s.portOpen = true ∧ t = s.record (s.valueAt l)) := by
  unfold portRead at h
  split_ifs at h with h₁ h₂
  · exact .inl ⟨h₁, (Host.Outcome.next.inj h).symm⟩
  · exact .inr ⟨h₁, h₂, (Host.Outcome.next.inj h).symm⟩

theorem portWrite_cases {s t : State} {l : Loc} {v : Word} (h : portWrite s l v = .next t) :
    s.portOpen = true ∧ t = s.store l v := by
  unfold portWrite at h
  split_ifs at h with h₁
  exact ⟨h₁, (Host.Outcome.next.inj h).symm⟩

theorem readCounted_cases {s t : State} {r : Reg} {b : Buf} (h : readCounted s r b = .next t) :
    s.portOpen = true ∧
      t = (s.record (.word (s.readReg r))).pushActions (HostAction.bytesFrom b 0 (s.readReg r).toNat) := by
  unfold readCounted at h
  split_ifs at h with h₁
  exact ⟨h₁, (Host.Outcome.next.inj h).symm⟩

theorem readNextByte_cases {s t : State} {b : Buf} {k more : Nat} (h : readNextByte s b k more = .next t) :
    k < b.cap s.cfg ∧ s.portOpen = true ∧
      t = (s.record (.byte (s.byteAt b k))).pushActions (HostAction.bytesFrom b (k + 1) more) := by
  unfold readNextByte at h
  split_ifs at h with h₁ h₂
  exact ⟨h₁, h₂, (Host.Outcome.next.inj h).symm⟩

/-- A change of the host's record, list, window or delay alone. -/
def hostOnly (s t : State) : Prop := t = { s with host := t.host }

/-- What an action of the host can do to the core: nothing, a store to a location that exists while the
port is open, or a reset. -/
theorem hostAct_cases {a : HostAction} {s t : State} (h : hostAct a s = .next t) :
    (hostOnly s t ∧ (s.busy = true → s.host.window = true → t.host.window = true)) ∨
      (∃ addr n v l, a = .memWrite addr n v ∧ locate s.cfg addr = some l ∧ l.width = n ∧
        s.portOpen = true ∧ t = s.store l v) ∨
      (a = .reset ∧ t = s.applyReset) := by
  cases a with
  | memRead addr n =>
    obtain ⟨l, -, -, hl⟩ := atLocation_cases h
    rcases portRead_cases hl with ⟨-, rfl⟩ | ⟨-, -, rfl⟩
    · exact .inl ⟨rfl, fun hb hw => by simp [hb, hw]⟩
    · exact .inl ⟨rfl, fun _ hw => hw⟩
  | memWrite addr n v =>
    obtain ⟨l, hl, hn, hw⟩ := atLocation_cases h
    obtain ⟨ho, rfl⟩ := portWrite_cases hw
    exact .inr (.inl ⟨addr, n, v, l, rfl, hl, hn, ho, rfl⟩)
  | reset => exact .inr (.inr ⟨rfl, (Host.Outcome.next.inj h).symm⟩)
  | wait =>
    obtain rfl := Host.Outcome.next.inj h
    refine .inl ?_
    split_ifs with hb
    · exact ⟨rfl, fun _ hw => by simp [hb, hw]⟩
    · exact ⟨rfl, fun hb' => absurd hb' hb⟩
  | rdTxt =>
    obtain ⟨-, rfl⟩ := readCounted_cases h
    exact .inl ⟨rfl, fun _ hw => hw⟩
  | rdKey =>
    obtain ⟨-, rfl⟩ := readCounted_cases h
    exact .inl ⟨rfl, fun _ hw => hw⟩
  | readBytes b k more =>
    obtain ⟨-, -, rfl⟩ := readNextByte_cases h
    exact .inl ⟨rfl, fun _ hw => hw⟩

/-! ### Accesses that the port takes -/

@[simp] theorem popAction_portOpen (s : State) (rest : List HostAction) :
    (s.popAction rest).portOpen = s.portOpen := rfl

/-- A core with an open port does not move. -/
theorem coreMoves_of_portOpen {s : State} (h : s.portOpen = true) : s.coreMoves = false := by
  have hb : s.busy = false := by
    simp only [State.portOpen, Bool.and_eq_true, Bool.not_eq_true'] at h
    exact h.1
  simp [State.coreMoves, hb]

theorem hostAct_memWrite {s : State} {addr n : Nat} {v : Word} {l : Loc} (hl : locate s.cfg addr = some l)
    (hn : l.width = n) (ho : s.portOpen = true) : hostAct (.memWrite addr n v) s = .next (s.store l v) := by
  simp [hostAct, atLocation, hl, hn, portWrite, ho]

theorem hostAct_memRead {s : State} {addr n : Nat} {l : Loc} (hl : locate s.cfg addr = some l)
    (hn : l.width = n) (hs : l ≠ .reg .status) (ho : s.portOpen = true) :
    hostAct (.memRead addr n) s = .next (s.record (s.valueAt l)) := by
  simp [hostAct, atLocation, hl, hn, portRead, ho, hs]

theorem hostAct_rdTxt {s : State} (ho : s.portOpen = true) :
    hostAct .rdTxt s = .next ((s.record (.word s.txtLen)).pushActions
      (HostAction.bytesFrom .txtmem 0 s.txtLen.toNat)) := by
  simp only [hostAct, readCounted, ho, if_true, State.readReg]

theorem hostAct_rdKey {s : State} (ho : s.portOpen = true) :
    hostAct .rdKey s = .next ((s.record (.word s.keyLen)).pushActions
      (HostAction.bytesFrom .keymem 0 s.keyLen.toNat)) := by
  simp only [hostAct, readCounted, ho, if_true, State.readReg]

theorem hostAct_readBytes {s : State} {b : Buf} {k more : Nat} (hk : k < b.cap s.cfg)
    (ho : s.portOpen = true) :
    hostAct (.readBytes b k more) s =
      .next ((s.record (.byte (s.byteAt b k))).pushActions (HostAction.bytesFrom b (k + 1) more)) := by
  simp only [hostAct, readNextByte, hk, ho, if_true]

theorem hostAct_readBytes_missing {s : State} {b : Buf} {k more : Nat} (hk : b.cap s.cfg ≤ k) :
    hostAct (.readBytes b k more) s = .refused (.noSuchByte b k) := by
  simp only [hostAct, readNextByte, Nat.not_lt.2 hk, if_false]

theorem hostAct_readStatus (s : State) : hostAct (.memRead 4 4) s = .next s.readStatus := by
  have hl : locate s.cfg 4 = some (.reg .status) := locate_reg _ .status
  simp [hostAct, atLocation, hl, Loc.width, portRead]

/-! ### One step -/

theorem step_of_coreMoves {s : State} (h : s.coreMoves = true) : step s = complete s := by
  simp [step, h]

theorem step_of_actions {s : State} {a : HostAction} {rest : List HostAction}
    (h : s.coreMoves = false) (ha : s.host.actions = a :: rest) :
    step s = hostAct a (s.popAction rest) := by
  simp [step, h, ha]

/-- A core with no command in flight does not move. -/
theorem coreMoves_of_idle {s : State} (h : s.busy = false) : s.coreMoves = false := by
  simp [State.coreMoves, h]

/-- What a step can be. -/
theorem step_cases {s t : State} (h : step s = .next t) :
    (s.coreMoves = true ∧ complete s = .next t) ∨
      (s.coreMoves = false ∧ s.host.actions = [] ∧ t = s) ∨
      ∃ a rest, s.coreMoves = false ∧ s.host.actions = a :: rest ∧
        hostAct a (s.popAction rest) = .next t := by
  unfold step at h
  split_ifs at h with hm
  · exact .inl ⟨hm, h⟩
  · split at h
    · next ha => exact .inr (.inl ⟨by simpa using hm, ha, (Host.Outcome.next.inj h).symm⟩)
    · next a rest ha => exact .inr (.inr ⟨a, rest, by simpa using hm, ha, h⟩)

end Sys2Proof.Machine
end

