-- ==== Sys2Proof/Laws/Runs.lean ====
section
/-! SUPPORT. `RUN m` as a function on states (30_encoding R70): it has a value exactly where the port is
open, and leaves it open. -/

namespace Sys2Proof.Machine

theorem portOpen_iff {s : State} : s.portOpen = true ↔ s.busy = false ∧ s.host.window = false := by
  simp [State.portOpen]

/-- A command that runs where the port is open completes with what `exec` gives. -/
theorem runCommand_of_open {s : State} (i : Instr) (h : s.portOpen = true) :
    ∃ t, exec i (s.latch (encode i)) = .next t ∧ s.runCommand i = some t := by
  refine ⟨_, exec_next _ _, ?_⟩
  unfold State.runCommand
  rw [if_pos h, exec_next]

theorem runCommand_cases {s t : State} {i : Instr} (h : s.runCommand i = some t) :
    s.portOpen = true ∧ exec i (s.latch (encode i)) = .next t := by
  unfold State.runCommand at h
  split_ifs at h with ho
  refine ⟨ho, ?_⟩
  rw [exec_next] at h ⊢
  simpa using h

theorem exec_portOpen {i : Instr} {s t : State} (h : exec i s = .next t) (hw : s.host.window = false) :
    t.portOpen = true := by
  rcases exec_cases i s with ⟨-, hx⟩ | ⟨-, hx⟩ <;> obtain rfl := Host.Outcome.next.inj (hx.symm.trans h) <;>
    simp [State.portOpen, hw]

theorem runCommand_portOpen {s t : State} {i : Instr} (h : s.runCommand i = some t) : t.portOpen = true :=
  exec_portOpen (runCommand_cases h).2 (portOpen_iff.1 (runCommand_cases h).1).2

theorem runCommand_sound {s t : State} {i : Instr} (hs : s.sound) (h : s.runCommand i = some t) : t.sound :=
  exec_sound (s := s.latch (encode i)) hs (runCommand_cases h).2

/-- `RUN m` of a command that succeeds: its writes, with the word in CMD and ERR = 0. -/
theorem runCommand_success {s : State} {i : Instr} (ho : s.portOpen = true) (he : commandError i s = .none) :
    s.runCommand i = some (((commandWrites i s).latch (encode i)).finish .none) := by
  obtain ⟨t, ht, hr⟩ := runCommand_of_open i ho
  rw [exec_of_success (by rw [commandError_latch]; exact he), commandWrites_latch] at ht
  rw [hr, Host.Outcome.next.inj ht]

/-- The host's side is no operand of `RUN m`, but for its window. -/
theorem runCommand_host {s t : State} {i : Instr} (h : s.runCommand i = some t) (hs : HostSide)
    (hw : hs.window = false) : ({ s with host := hs } : State).runCommand i = some { t with host := hs } := by
  obtain ⟨ho, hx⟩ := runCommand_cases h
  have ho' : ({ s with host := hs } : State).portOpen = true := portOpen_iff.2 ⟨(portOpen_iff.1 ho).1, hw⟩
  have hl : ({ s with host := hs } : State).latch (encode i) = { s.latch (encode i) with host := hs } := rfl
  unfold State.runCommand
  rw [if_pos ho', hl, exec_host hx hs]

/-! ### Several steps -/

/-- The host's run, one step further. -/
theorem coreRun_succ (M : Host.Core) (n : Nat) (s : M.State) :
    M.run (n + 1) s =
      match M.step s with
      | .next t => M.run n t
      | .fault r => .fault r
      | .refused r => .refused r := rfl

/-- One step, then the others. -/
theorem run_succ {s t : State} (n : Nat) (h : step s = .next t) :
    Sys2Proof.core.run (n + 1) s = Sys2Proof.core.run n t := by
  have h' : Sys2Proof.core.step s = .next t := h
  refine (coreRun_succ Sys2Proof.core n s).trans ?_
  rw [h']

/-- What a step that stops leaves of a run. -/
theorem run_succ_cases {n : Nat} {s u : State}
    (h : Sys2Proof.core.run (n + 1) s = Host.Outcome.next (σ := State) u) :
    ∃ t, step s = .next t ∧ Sys2Proof.core.run n t = Host.Outcome.next (σ := State) u := by
  have h' := (coreRun_succ Sys2Proof.core n s).symm.trans h
  cases hs : Sys2Proof.core.step s with
  | next t => exact ⟨t, hs, by rwa [hs] at h'⟩
  | fault r => simp [hs] at h'
  | refused r => simp [hs] at h'

/-- What every step keeps, a run keeps. -/
theorem run_keeps {P : State → Prop} (hP : ∀ s t, P s → step s = .next t → P t) (n : Nat) {s t : State}
    (hs : P s) (h : Sys2Proof.core.run n s = Host.Outcome.next (σ := State) t) : P t := by
  induction n generalizing s with
  | zero =>
    obtain rfl := Host.Outcome.next.inj h
    exact hs
  | succ n ih =>
    obtain ⟨u, hu, hr⟩ := run_succ_cases h
    exact ih (hP s u hs hu) hr

/-- Some steps, then the others. -/
theorem coreRun_add {M : Host.Core} {m : Nat} (n : Nat) {s t : M.State} (h : M.run m s = .next t) :
    M.run (m + n) s = M.run n t := by
  induction m generalizing s with
  | zero =>
    obtain rfl := Host.Outcome.next.inj h
    rw [Nat.zero_add]
  | succ m ih =>
    rw [Nat.succ_add, coreRun_succ]
    rw [coreRun_succ] at h
    cases hs : M.step s with
    | next s' =>
      rw [hs] at h
      exact ih h
    | fault r =>
      rw [hs] at h
      simp at h
    | refused r =>
      rw [hs] at h
      simp at h

/-! ### Runs of accesses -/

/-- The host's writes of a byte sequence that fits its buffer: the bytes are stored, one step each, and
nothing else of the core changes. -/
theorem run_wrbs (b : Buf) (bytes : List Byte) (a : Nat) (rest : List HostAction) (s : State)
    (hs : s.sound) (ho : s.portOpen = true) (hl : a + bytes.length ≤ b.cap s.cfg)
    (ha : s.host.actions = HostAction.wrbs s.cfg b a bytes ++ rest) :
    ∃ t : State, Sys2Proof.core.run bytes.length s = .next t ∧
      t = { s.setBuffer b (Memory.writeBytes (s.buffer b) a bytes) with host := t.host } ∧
      t.host.actions = rest ∧ t.host.reads = s.host.reads ∧ t.portOpen = true := by
  induction bytes generalizing s a with
  | nil => exact ⟨s, rfl, by cases b <;> rfl, ha, rfl, ho⟩
  | cons v vs ih =>
    simp only [List.length_cons] at hl
    have hloc := locate_byte hs.1 b (k := a) (by omega)
    have h₁ := (step_of_actions (coreMoves_of_portOpen ho) ha).trans
      (hostAct_memWrite (v := v.setWidth 32) hloc rfl ho)
    have hv : (v.setWidth 32).setWidth 8 = v := by simp
    simp only [State.store, hv] at h₁
    obtain ⟨t, ht, h₂, h₃, h₄, h₅⟩ := ih (a + 1) _
      (setByte_sound (s := s.popAction (HostAction.wrbs s.cfg b (a + 1) vs ++ rest)) hs
        (k := a) (b := b) (by show a < b.cap s.cfg; omega) v)
      (by cases b <;> exact ho) (by cases b <;> (show _ ≤ Buf.cap s.cfg _; omega)) (by cases b <;> rfl)
    refine ⟨t, (run_succ _ h₁).trans ht, ?_, h₃, h₄.trans (by cases b <;> rfl), h₅⟩
    rw [h₂]
    cases b <;> rfl

/-- The host's reads of the bytes of a buffer: one step each, recorded in order. -/
theorem run_rdbs (b : Buf) (ks : List Nat) (rest : List HostAction) (s : State) (hs : s.cfg.legal = true)
    (ho : s.portOpen = true) (hl : ∀ k ∈ ks, k < b.cap s.cfg)
    (ha : s.host.actions = ks.map (HostAction.rdb s.cfg b) ++ rest) :
    ∃ t : State, Sys2Proof.core.run ks.length s = .next t ∧ t = { s with host := t.host } ∧
      t.host.actions = rest ∧ t.portOpen = true ∧
      t.host.reads = s.host.reads ++ ks.map fun k => PortValue.byte (s.byteAt b k) := by
  induction ks generalizing s with
  | nil => exact ⟨s, rfl, rfl, ha, ho, by simp⟩
  | cons k ks ih =>
    have h₁ := (step_of_actions (coreMoves_of_portOpen ho) ha).trans
      (hostAct_memRead (locate_byte hs b (hl k List.mem_cons_self)) rfl (by simp) ho)
    obtain ⟨t, ht, h₂, h₃, h₄, h₅⟩ :=
      ih (State.record (s.popAction (ks.map (HostAction.rdb s.cfg b) ++ rest)) (.byte (s.byteAt b k))) hs ho
        (fun j hj => hl j (List.mem_cons_of_mem _ hj)) rfl
    refine ⟨t, (run_succ _ h₁).trans (by cases b <;> exact ht), by rw [h₂]; rfl, h₃, h₄, ?_⟩
    rw [h₅]
    cases b <;> simp [State.byteAt, State.record, State.popAction]

/-- The byte reads that RDTXT and RDKEY make, as far as the buffer has the bytes. -/
theorem run_bytesFrom (b : Buf) (m n k : Nat) (rest : List HostAction) (s : State)
    (ho : s.portOpen = true) (hl : k + m ≤ b.cap s.cfg) (hm : m ≤ n)
    (ha : s.host.actions = HostAction.bytesFrom b k n ++ rest) :
    ∃ t : State, Sys2Proof.core.run m s = .next t ∧ t = { s with host := t.host } ∧
      t.host.actions = HostAction.bytesFrom b (k + m) (n - m) ++ rest ∧ t.portOpen = true ∧
      t.host.reads = s.host.reads ++ (Memory.readBytes (s.buffer b) k m).map PortValue.byte := by
  induction m generalizing s n k with
  | zero => exact ⟨s, rfl, rfl, ha, ho, by simp [Memory.readBytes]⟩
  | succ m ih =>
    obtain ⟨n, rfl⟩ := Nat.exists_eq_add_of_le' hm
    have h₁ := (step_of_actions (coreMoves_of_portOpen ho) ha).trans
      (hostAct_readBytes (b := b) (by show k < b.cap s.cfg; omega) ho)
    obtain ⟨t, ht, h₂, h₃, h₄, h₅⟩ := ih (n + m) (k + 1)
      (((s.popAction rest).record (.byte (s.byteAt b k))).pushActions (HostAction.bytesFrom b (k + 1) (n + m)))
      ho (by show _ ≤ b.cap s.cfg; omega) (by omega) rfl
    refine ⟨t, (run_succ _ h₁).trans (by cases b <;> exact ht), by rw [h₂]; rfl, ?_, h₄, ?_⟩
    · rw [h₃, show k + 1 + m = k + (m + 1) by omega, show n + m - m = n + (m + 1) - (m + 1) by omega]
    · rw [h₅]
      have hb : Memory.readBytes (s.buffer b) k (m + 1) =
          s.byteAt b k :: Memory.readBytes (s.buffer b) (k + 1) m := by
        simp only [Memory.readBytes, List.range_succ_eq_map, List.map_cons, List.map_map, State.byteAt,
          Nat.add_zero]
        congr 1
        refine List.map_congr_left fun i _ => ?_
        simp only [Function.comp_apply, Nat.succ_eq_add_one, Nat.add_assoc, Nat.add_comm 1 i]
      rw [hb]
      cases b <;> simp [State.byteAt, State.record, State.pushActions, State.popAction]

end Sys2Proof.Machine
end

