-- ==== Sys2Proof/Laws/Truncation.lean ====
section
/-! SUPPORT. The four terms of the truncation formula occupy disjoint bit ranges, so `|` is also `+`
(43_truncation R141). -/

namespace Sys2Proof.Machine

theorem toNat_and_ff (x : Byte) : ((x &&& 0xFF).setWidth 31).toNat = x.toNat := by
  have hx := x.isLt
  rw [show (0xFF : Byte) = BitVec.allOnes 8 by rfl, BitVec.and_allOnes]
  simp only [BitVec.toNat_setWidth]
  omega

theorem toNat_and_7f (x : Byte) : ((x &&& 0x7F).setWidth 31).toNat = x.toNat % 2 ^ 7 := by
  rw [BitVec.toNat_setWidth, BitVec.toNat_and, show (0x7F : Byte).toNat = 2 ^ 7 - 1 by rfl,
    Nat.and_two_pow_sub_one_eq_mod]
  omega

/-- The window's value as a number. -/
theorem toNat_windowValue (s : State) (o : Nat) :
    (windowValue s o).toNat = (s.digestByte o).toNat % 2 ^ 7 * 2 ^ 24 + (s.digestByte (o + 1)).toNat * 2 ^ 16 +
      (s.digestByte (o + 2)).toNat * 2 ^ 8 + (s.digestByte (o + 3)).toNat := by
  have hy := (s.digestByte (o + 1)).isLt
  have hz := (s.digestByte (o + 2)).isLt
  have hw := (s.digestByte (o + 3)).isLt
  have hx : (s.digestByte o).toNat % 2 ^ 7 < 2 ^ 7 := Nat.mod_lt _ (by norm_num)
  simp only [windowValue, BitVec.toNat_or, BitVec.toNat_shiftLeft, toNat_and_ff, toNat_and_7f]
  generalize (s.digestByte o).toNat % 2 ^ 7 = x at *
  generalize (s.digestByte (o + 1)).toNat = y at *
  generalize (s.digestByte (o + 2)).toNat = z at *
  generalize (s.digestByte (o + 3)).toNat = w at *
  rw [show x <<< 24 % 2 ^ 31 = (x * 2 ^ 8) <<< 16 by simp only [Nat.shiftLeft_eq]; omega,
    show y <<< 16 % 2 ^ 31 = y <<< 16 by simp only [Nat.shiftLeft_eq]; omega,
    show z <<< 8 % 2 ^ 31 = z <<< 8 by simp only [Nat.shiftLeft_eq]; omega]
  have top : (x * 2 ^ 8) <<< 16 ||| y <<< 16 = ((x * 2 ^ 8 + y) * 2 ^ 8) <<< 8 := by
    rw [← Nat.shiftLeft_or_distrib, ← Nat.shiftLeft_eq x 8, ← Nat.shiftLeft_add_eq_or_of_lt hy]
    simp only [Nat.shiftLeft_eq]
    omega
  have upper : ((x * 2 ^ 8 + y) * 2 ^ 8) <<< 8 ||| z <<< 8 = ((x * 2 ^ 8 + y) * 2 ^ 8 + z) <<< 8 := by
    rw [← Nat.shiftLeft_or_distrib, ← Nat.shiftLeft_eq _ 8, ← Nat.shiftLeft_add_eq_or_of_lt hz]
  rw [top, upper, ← Nat.shiftLeft_add_eq_or_of_lt hw]
  simp only [Nat.shiftLeft_eq]
  omega

end Sys2Proof.Machine
end

