-- ==== Sys2Proof/Tests/Slice0.lean ====
section
/-! SUPPORT. Tests, with expected values from the spec (95_test_vectors and the worked examples of the
rules), and a witness for the hypotheses of each statement that has some. -/

namespace Sys2Proof.Tests

open Sys2Proof.Machine

/-- A property of the next state; false for a stop. -/
def nextHas (o : Host.Outcome State Fault Refusal) (p : State → Bool) : Bool :=
  match o with
  | .next t => p t
  | .fault _ => false
  | .refused _ => false

/-- A property of a value that may be absent. -/
def someHas {α : Type} (o : Option α) (p : α → Bool) : Bool :=
  match o with
  | some x => p x
  | none => false

/-- The characters of a text, by their ASCII codes. -/
def ascii (s : String) : List Byte := s.toList.map fun c => BitVec.ofNat 8 c.toNat

/-- `LDKEY` and `LDMSG` after reset. -/
def keyed (key msg : List Byte) : State :=
  { State.reset with
    keymem := Memory.writeBytes [] 0 key
    keyLen := BitVec.ofNat 32 key.length
    msgmem := Memory.writeBytes [] 0 msg
    msgLen := BitVec.ofNat 32 msg.length }

/-- `LDTXT` after reset. -/
def texted (text : List Byte) : State :=
  { State.reset with
    txtmem := Memory.writeBytes [] 0 text
    txtLen := BitVec.ofNat 32 text.length }

/-- `LDDIG` and a value of OFFSET after reset. -/
def digested (digest : List Byte) (offset : BitVec 4) : State :=
  { State.reset with digest := Memory.writeBytes [] 0 digest, offset := offset }

/-- After reset, with actions of the host. -/
def acting (as : List HostAction) : State := { State.reset with host := { HostSide.idle with actions := as } }

/-- A command word in flight, its completion some host moves away. -/
def inFlight (w : Word) (delay : Nat) (as : List HostAction) : State :=
  { State.reset with
    cmd := w
    busy := true
    host := { HostSide.idle with actions := as, window := true, delay := delay } }

/-! ### Decoding: the words of 30_encoding R62, bit by bit (RSV, then OPC) -/

theorem test_decode_ctrser : decode (0b000000000000000000000000#24 ++ 0b00000001#8) = .ok .ctrser := rfl
theorem test_decode_hmac : decode (0b000000000000000000000000#24 ++ 0b00000010#8) = .ok .hmac := rfl
theorem test_decode_doff : decode (0b000000000000000000000000#24 ++ 0b00000011#8) = .ok .doff := rfl
theorem test_decode_trunc : decode (0b000000000000000000000000#24 ++ 0b00000100#8) = .ok .trunc := rfl
theorem test_decode_b32dec : decode (0b000000000000000000000000#24 ++ 0b00000101#8) = .ok .b32dec := rfl
theorem test_decode_b32enc : decode (0b000000000000000000000000#24 ++ 0b00000110#8) = .ok .b32enc := rfl

/-- No two rows of the opcode map select the same word. -/
theorem test_opcode_map_has_no_overlap :
    opcodeMap.Pairwise fun r q => r.pattern &&& (r.mask &&& q.mask) ≠ q.pattern &&& (r.mask &&& q.mask) := by
  decide

theorem test_table_word : decodeTableWord 32 0x00000004 = some .trunc := by decide
theorem test_table_word_rejected : decodeTableWord 32 0x00000105 = none := by decide
theorem test_fetch_word_runs :
    nextHas (step (State.reset.withFetchWord 32 0x00000001)) (fun t => t.msgLen == 8 && !t.busy) = true := by
  decide +kernel

/-! ### Well-formedness: an ill-formed term for each check -/

theorem test_reserved_bit_refused : wordWellFormed 0x00000105 = false ∧ reservedZero 0x00000105 = false ∧
    opcodeAssigned 0x00000105 = true := by decide
theorem test_opcode_zero_refused : wordWellFormed 0x00000000 = false ∧ reservedZero 0x00000000 = true := by
  decide
theorem test_opcode_seven_refused : wordWellFormed 0x00000007 = false ∧ reservedZero 0x00000007 = true := by
  decide
theorem test_keyCap_not_multiple_of_5 : Config.legal { Config.default with keyCap := 159 } = false := by
  decide
theorem test_keyCap_too_small : Config.legal { Config.default with keyCap := 75 } = false := by decide
theorem test_msgCap_too_small : Config.legal { Config.default with msgCap := 72 } = false := by decide
theorem test_buffers_overlap : Config.legal { Config.default with msgBase := 0x300, txtBase := 0x200 } = false := by
  decide
theorem test_default_is_legal : Config.default.legal = true := by decide
theorem test_byte_access_to_register_refused :
    (HostAction.memRead 0x004 1).wellShaped Config.default = false := by decide
theorem test_misaligned_access_refused :
    (HostAction.memWrite 0x002 4 0).wellShaped Config.default = false := by decide
theorem test_unassigned_offset_refused :
    (HostAction.memRead 0x1A0 1).wellShaped Config.default = false := by decide
theorem test_memory_lists_no_zero : ¬Memory.wf 20 [(3, 0x00#8)] := by decide
theorem test_memory_is_sorted : ¬Memory.wf 20 [(3, 0x01#8), (2, 0x01#8)] := by decide
theorem test_memory_within_capacity : ¬Memory.wf 20 [(20, 0x01#8)] := by decide

/-! ### CTRSER (95_test_vectors section 3) -/

theorem test_ctrser_every_byte_distinct :
    nextHas (exec .ctrser { State.reset with ctrHi := 0x01234567, ctrLo := 0x89ABCDEF })
      (fun t => Memory.readBytes t.msgmem 0 8 == [0x01, 0x23, 0x45, 0x67, 0x89, 0xAB, 0xCD, 0xEF] &&
        t.msgLen == 8) = true := by
  decide

theorem test_ctrser_keeps_byte_8 :
    nextHas (exec .ctrser { State.reset with ctrHi := 1, msgmem := [(7, 0x11#8), (8, 0x22#8)] })
      (fun t => t.msgmem == [(3, 0x01#8), (8, 0x22#8)]) = true := by
  decide

/-! ### HMAC (95_test_vectors section 1.2, RFC 2202 cases 2 and 6) -/

theorem test_hmac_case_2 :
    nextHas (exec .hmac (keyed (ascii "Jefe") (ascii "what do ya want for nothing?")))
      (fun t => Memory.readBytes t.digest 0 20 ==
        [0xef, 0xfc, 0xdf, 0x6a, 0xe5, 0xeb, 0x2f, 0xa2, 0xd2, 0x74, 0x16, 0xd5, 0xf1, 0x84, 0xdf, 0x9c, 0x25,
          0x9a, 0x7c, 0x79]) = true := by
  decide +kernel

theorem test_hmac_case_6_long_key :
    nextHas (exec .hmac (keyed (List.replicate 80 0xAA)
        (ascii "Test Using Larger Than Block-Size Key - Hash Key First")))
      (fun t => Memory.readBytes t.digest 0 20 ==
        [0xaa, 0x4a, 0xe5, 0xe1, 0x52, 0x72, 0xd0, 0x0e, 0x95, 0x70, 0x56, 0x37, 0xce, 0x8a, 0x3b, 0x55, 0xed,
          0x40, 0x21, 0x12]) = true := by
  decide +kernel

/-! ### DOFF (43_truncation R140) and TRUNC (95_test_vectors sections 2 and 7) -/

theorem test_doff_worked_example :
    nextHas (exec .doff { State.reset with digest := [(19, 0xAB#8)] }) (fun t => t.offset == 11) = true := by
  decide

theorem test_doff_drops_the_high_bits :
    nextHas (exec .doff { State.reset with digest := [(19, 0xF0#8)], offset := 5 })
      (fun t => t.offset == 0) = true := by
  decide

theorem test_trunc_masks_the_top_byte :
    nextHas (exec .trunc (digested [0xcc, 0x93, 0xcf, 0x18, 0x50] 0)) (fun t => t.trunc == 0x4C93CF18) = true := by
  decide

theorem test_trunc_last_window :
    nextHas (exec .trunc (digested ((List.range 20).map fun k => BitVec.ofNat 8 (0x80 + k)) 15))
      (fun t => t.trunc == 0x0F909192) = true := by
  decide +kernel

/-! ### B32DEC and B32ENC (95_test_vectors section 4) -/

theorem test_b32dec_fooba :
    nextHas (exec .b32dec (texted (ascii "MZXW6YTB")))
      (fun t => Memory.readBytes t.keymem 0 5 == ascii "fooba" && t.keyLen == 5 && t.err == .none) = true := by
  decide +kernel

theorem test_b32dec_length_before_character :
    nextHas (exec .b32dec (texted (ascii "MZXW6Y8"))) (fun t => t.err == .invalidEncoding && t.keymem == []) = true ∧
      nextHas (exec .b32dec (texted (ascii "MZXW6YT="))) (fun t => t.err == .invalidCharacter) = true := by
  decide +kernel

theorem test_b32enc_worked_example :
    nextHas (exec .b32enc (keyed (ascii "12345678901234567890") []))
      (fun t => Memory.readBytes t.txtmem 0 32 == ascii "GEZDGNBVGY3TQOJQGEZDGNBVGY3TQOJQ" && t.txtLen == 32) =
        true := by
  decide +kernel

theorem test_b32enc_refuses_a_partial_group :
    nextHas (exec .b32enc (keyed [1, 2, 3, 4] [])) (fun t => t.err == .badOperand && t.txtmem == []) = true := by
  decide

/-! ### Illegal words, and the port (95_test_vectors P3, P4, P7) -/

theorem test_illegal_word_completes :
    nextHas (step (inFlight 0x00000105 0 [])) (fun t => t.status == 0x00000400 && t.cmd == 0x00000105) = true := by
  decide

theorem test_offset_write_keeps_four_bits :
    nextHas (step (acting [.memWrite 0x01C 4 0x0000001E])) (fun t => t.readReg .offset == 14) = true := by
  decide

theorem test_digest_byte_19_stands_at_053 :
    nextHas (step (acting [.memWrite 0x053 1 0x10])) (fun t => t.digest == [(19, 0x10#8)]) = true := by
  decide

theorem test_trunc_register_ignores_writes :
    nextHas (step (acting [.memWrite 0x020 4 0xFFFFFFFF])) (fun t => t.trunc == 0) = true := by
  decide

theorem test_reset_while_busy :
    nextHas (step { inFlight 2 1 [.reset] with keymem := [(0, 0x4A#8)], keyLen := 4 })
      (fun t => t.keymem == [] && t.keyLen == 0 && t.status == 0 && t.cmd == 0 && t.portOpen) = true := by
  decide

theorem test_busy_refuses_a_read_of_CMD :
    step (inFlight 2 1 [.memRead 0x000 4]) = .refused .accessInBusyWindow := rfl

theorem test_unassigned_offset_stops :
    step (acting [.memRead 0x024 4]) = .refused (.unassignedOffset 0x024) ∧
      step (acting [.memRead 0x054 1]) = .refused (.unassignedOffset 0x054) ∧
      step (acting [.memRead 0x100 4]) = .refused (.noSuchAccess 0x100 4) ∧
      step (acting [.memRead 0x004 1]) = .refused (.noSuchAccess 0x004 1) :=
  ⟨rfl, rfl, rfl, rfl⟩

/-- With TXTLEN = 257 RDTXT still reads TXTLEN, and byte 255 after 255 others; byte 256 does not exist. -/
theorem test_rdtxt_stops_at_the_first_missing_byte :
    nextHas (step { acting [.rdTxt] with txtLen := 257 })
        (fun t => t.host.reads == [.word 257] && t.host.actions == [.readBytes .txtmem 0 256]) = true ∧
      nextHas (step { acting [.readBytes .txtmem 255 1] with txtmem := [(255, 0x41#8)] })
        (fun t => t.host.reads == [.byte 0x41] && t.host.actions == [.readBytes .txtmem 256 0]) = true ∧
      step (acting [.readBytes .txtmem 256 0]) = .refused (.noSuchByte .txtmem 256) :=
  ⟨by decide, by decide, rfl⟩

/-! ### SHA-1 (42_hmac_sha1 R116, 95_test_vectors section 5) -/

theorem test_sha1_abc :
    sha1 (ascii "abc") =
      [0xa9, 0x99, 0x3e, 0x36, 0x47, 0x06, 0x81, 0x6a, 0xba, 0x3e, 0x25, 0x71, 0x78, 0x50, 0xc2, 0x6c, 0x9c, 0xd0,
        0xd8, 0x9d] := by
  decide +kernel

theorem test_sha1_two_blocks :
    sha1 (List.replicate 56 0x61) =
      [0xc2, 0xdb, 0x33, 0x0f, 0x60, 0x83, 0x85, 0x4c, 0x99, 0xd4, 0xb5, 0xbf, 0xb6, 0xe8, 0xf2, 0x9f, 0x20, 0x1b,
        0xe6, 0x99] := by
  decide +kernel

theorem test_schedule_of_abc :
    (Sha1.schedule (Sha1.wordsOf 16 (Sha1.pad (ascii "abc")))).getD 16 0 = 0xC2C4C700 ∧
      (Sha1.schedule (Sha1.wordsOf 16 (Sha1.pad (ascii "abc")))).getD 79 0 = 0x822E0879 := by
  decide +kernel

/-! ### The host's functions (95_test_vectors sections 1.1, 1.6, 1.7, 1.9 and 4) -/

theorem test_digits_are_padded : extractDigits 2000000042 6 = some (ascii "000042") := by decide +kernel

theorem test_remaining_seconds :
    remainingSeconds (123 / 2) 30 = some 29 ∧ remainingSeconds 60 30 = some 30 := by decide +kernel

theorem test_counter_before_the_epoch : buildCounter 10 30 (-1) = none := by decide +kernel

theorem test_calendar_times :
    unixSeconds 1970 1 1 0 0 59 = 59 ∧ unixSeconds 2005 3 18 1 58 29 = 1111111109 ∧
      unixSeconds 2603 10 11 11 33 20 = 20000000000 := by
  decide +kernel

theorem test_token_at_59 :
    someHas (State.reset.computeToken (ascii "12345678901234567890") 59)
      (fun r => r.1 == ascii "287082" && r.2.offset == 11 && r.2.trunc == 0x41397EEA) = true := by
  decide +kernel

theorem test_verify_window :
    (State.reset.verify (ascii "12345678901234567890") (ascii "266759") [1111111109, 1111111109, 1111111109]
        30 0 2).map Prod.fst = some true ∧
      (State.reset.verify (ascii "12345678901234567890") (ascii "266759") [1111111109, 1111111109]
        30 0 1).map Prod.fst = some false := by
  decide +kernel

/-! ### Witnesses: states and operands that meet the hypotheses of the statements -/

theorem witness_sound_open : State.reset.sound ∧ State.reset.portOpen = true ∧ State.reset.inv := by decide

/-- StepRunsTheDecodedCommand and EveryIssuedWordCompletes: both ways for the completion to be due. -/
theorem witness_completion_due :
    ((inFlight 1 0 [.wait]).busy = true ∧ (inFlight 1 0 [.wait]).host.delay = 0 ∧
      decode (inFlight 1 0 [.wait]).cmd = .ok .ctrser) ∧
    ((inFlight 1 9 []).busy = true ∧ (inFlight 1 9 []).host.actions = [] ∧
      decode (inFlight 1 9 []).cmd = .ok .ctrser) :=
  ⟨⟨rfl, rfl, rfl⟩, rfl, rfl, rfl⟩

theorem witness_IllegalWordCompletesWithIllegalCommand :
    (inFlight 0 0 []).cmd.toNat = 0 ∧ 6 < (inFlight 7 0 []).cmd.toNat ∧
      6 < (inFlight 0xFFFFFFFF 0 []).cmd.toNat ∧ (inFlight 7 0 []).busy = true := by
  decide

theorem witness_CounterBytesDetermineTheCounter :
    State.reset.sound ∧ (∃ t, exec .ctrser State.reset = .next t) ∧
      ([0, 0, 0, 0, 0, 0, 0, 0] : List Byte).length = 8 :=
  ⟨by decide, ⟨_, rfl⟩, rfl⟩

/-- The lengths at their bounds: a full key and a full message, and each one above. -/
theorem witness_HmacWritesTheDigest :
    (State.sound { State.reset with keyLen := 160, msgLen := 256 }) ∧
    ((160 : Word).toNat ≤ Config.default.keyCap ∧ (256 : Word).toNat ≤ Config.default.msgCap) ∧
    Config.default.keyCap < (161 : Word).toNat ∧ Config.default.msgCap < (257 : Word).toNat := by
  decide

/-- One text for each clause, at the bounds of TXTLEN. -/
theorem witness_B32decDecodesTheText :
    (texted (ascii "MZXW6YT=")).sound ∧ Config.default.txtCap < (257 : Word).toNat ∧
    ((texted (ascii "MZXW6YT")).txtLen.toNat ≤ Config.default.txtCap ∧
      (texted (ascii "MZXW6YT")).txtLen.toNat % 8 ≠ 0) ∧
    ((texted (ascii "MZXW6YT=")).txtLen.toNat % 8 = 0 ∧
      ∃ k < (texted (ascii "MZXW6YT=")).txtLen.toNat,
        b32val (Memory.read (texted (ascii "MZXW6YT=")).txtmem k) = none) ∧
    ((texted (ascii "MZXW6YTB")).sound ∧ (texted (ascii "MZXW6YTB")).txtLen.toNat % 8 = 0 ∧
      ∀ k < (texted (ascii "MZXW6YTB")).txtLen.toNat,
        b32val (Memory.read (texted (ascii "MZXW6YTB")).txtmem k) ≠ none) ∧
    (∀ k < State.reset.txtLen.toNat, b32val (Memory.read State.reset.txtmem k) ≠ none) ∧
    ((256 : Word).toNat ≤ Config.default.txtCap ∧ (256 : Word).toNat % 8 = 0) := by
  decide +kernel

theorem witness_B32encEncodesTheKey :
    (State.sound { State.reset with keyLen := 160 }) ∧
    ((160 : Word).toNat ≤ Config.default.keyCap ∧ (160 : Word).toNat % 5 = 0) ∧
    Config.default.keyCap < (165 : Word).toNat ∧ (4 : Word).toNat % 5 ≠ 0 := by
  decide

/-- A command and an illegal word that report an error. -/
theorem witness_ErrorsWriteNothingButStatus :
    nextHas (exec .b32enc (keyed [1, 2, 3, 4] [])) (·.err != .none) = true ∧
      nextHas (complete (inFlight 7 0 [])) (·.err != .none) = true := by
  decide

/-- ErrorsAreRaisedExactlyWhenTheRulesSay and CommandsWriteOnlyTheirDestinations: every command has a next
state, and every illegal word. -/
theorem witness_every_command_completes :
    (∀ i : Instr, ∃ t, exec i State.reset = .next t) ∧ ∃ t, complete (inFlight 7 0 []) = .next t :=
  ⟨fun i => by cases i <;> exact ⟨_, rfl⟩, ⟨_, rfl⟩⟩

/-- Two states that differ, and agree on what CTRSER reads. -/
theorem witness_CommandsDependOnlyOnWhatTheyRead :
    State.reset ≠ digested [1] 3 ∧ (digested [1] 3).sound ∧ State.reset.cfg = (digested [1] 3).cfg ∧
      readsAgree .ctrser State.reset (digested [1] 3) ∧ (∃ t, exec .ctrser State.reset = .next t) ∧
      ∃ t, exec .ctrser (digested [1] 3) = .next t :=
  ⟨by decide, by decide, rfl, ⟨rfl, rfl⟩, ⟨_, rfl⟩, ⟨_, rfl⟩⟩

theorem witness_CommandsAreIdempotent : State.reset.sound ∧ ∃ t, State.reset.runCommand .b32enc = some t :=
  ⟨by decide, ⟨_, rfl⟩⟩

theorem witness_WriteToCmdIssuesACommand :
    (acting [.memWrite 0x000 4 2]).portOpen = true ∧
      (acting [.memWrite 0x000 4 2]).host.actions = .memWrite 0x000 4 2 :: [] :=
  ⟨rfl, rfl⟩

/-- BUSY goes up with a write to CMD, and down with a completion and with a reset. -/
theorem witness_BusyIsSetByIssueAndClearedByCompletionOrReset :
    (∃ t, step (acting [.memWrite 0x000 4 2]) = .next t ∧ t.busy = true) ∧
    (∃ t, step (inFlight 3 0 []) = .next t ∧ t.busy = false) ∧
    (∃ t, step (inFlight 3 1 [.reset]) = .next t ∧ t.busy = false) :=
  ⟨⟨_, rfl, rfl⟩, ⟨_, rfl, rfl⟩, _, rfl, rfl⟩

/-- ERR changes at an issue, at a completion and at a reset (both statements about STATUS). -/
theorem witness_ErrChanges :
    nextHas (step { acting [.memWrite 0x000 4 2] with err := .badOperand }) (·.err == .none) = true ∧
    nextHas (step (inFlight 7 0 [])) (·.err != .none) = true ∧
    nextHas (step { acting [.reset] with err := .badOperand }) (·.err == .none) = true := by
  decide

theorem witness_BusyWindowRefusesAllButStatusReads :
    ((inFlight 2 1 [.memRead 0x000 4]).busy = true ∧ (inFlight 2 1 [.memRead 0x000 4]).coreMoves = false ∧
      (HostAction.memRead 0x000 4).wellShaped Config.default = true) ∧
    ((inFlight 2 1 [.memWrite 0x053 1 0]).coreMoves = false ∧
      (HostAction.memWrite 0x053 1 0).wellShaped Config.default = true) ∧
    ((inFlight 2 1 [.memRead 0x004 4]).coreMoves = false ∧
      (HostAction.memRead 0x004 4).wellShaped Config.default = true) ∧
    ((inFlight 2 1 [.rdTxt]).coreMoves = false ∧ (HostAction.rdTxt).wellShaped Config.default = true) ∧
    ((inFlight 2 1 [.readBytes .keymem 159 0]).coreMoves = false ∧
      (HostAction.readBytes .keymem 159 0).wellShaped Config.default = true) ∧
    (inFlight 2 1 [.wait]).coreMoves = false ∧ (inFlight 2 1 [.reset]).coreMoves = false := by
  decide

theorem witness_StatusReadReturnsErrAndBusy :
    (inFlight 2 1 [.memRead 0x004 4]).coreMoves = false ∧ (inFlight 2 1 [.memRead 0x004 4]).inv ∧
      (inFlight 2 1 [.memRead 0x004 4]).busy = true ∧
      (inFlight 2 1 [.memRead 0x004 4]).host.actions = .memRead 0x004 4 :: [] := by
  decide

theorem witness_RegisterWriteThenRead :
    (acting [.memWrite (4 * Reg.offset.index) 4 0xFF, .memRead (4 * Reg.offset.index) 4]).portOpen = true ∧
      Reg.offset ≠ .cmd := by
  decide

/-- The last byte of KEYMEM. -/
theorem witness_ByteWriteThenRead :
    (acting [.memWrite (Buf.base Config.default .keymem + 159) 1 0xFF,
        .memRead (Buf.base Config.default .keymem + 159) 1]).sound ∧
      (acting [.memWrite (Buf.base Config.default .keymem + 159) 1 0xFF,
        .memRead (Buf.base Config.default .keymem + 159) 1]).portOpen = true ∧
      159 < Buf.cap Config.default .keymem := by
  decide

/-- The offsets where the ranges of the map meet. -/
theorem witness_DefaultMapIsTheTable :
    locate Config.default 0x020 = some (.reg .trunc) ∧ locate Config.default 0x024 = none ∧
      locate Config.default 0x03F = none ∧ locate Config.default 0x040 = some (.byte .digest 0) ∧
      locate Config.default 0x053 = some (.byte .digest 19) ∧ locate Config.default 0x054 = none ∧
      locate Config.default 0x0FF = none ∧ locate Config.default 0x100 = some (.byte .keymem 0) ∧
      locate Config.default 0x19F = some (.byte .keymem 159) ∧ locate Config.default 0x1A0 = none ∧
      locate Config.default 0x200 = some (.byte .msgmem 0) ∧
      locate Config.default 0x300 = some (.byte .txtmem 0) ∧
      locate Config.default 0x3FF = some (.byte .txtmem 255) ∧ locate Config.default 0x400 = none := by
  decide

/-- An unassigned offset; an offset inside a register; a byte of a buffer at a register's width. -/
theorem witness_AccessesOfAnotherShapeStop :
    (acting [.memRead 0x024 4]).coreMoves = false ∧
    ((HostAction.memRead 0x024 4).wellShaped Config.default = false ∧
      locate Config.default 0x024 = none) ∧
    (HostAction.memRead 0x023 4).wellShaped Config.default = false ∧
    ((HostAction.memWrite 0x040 4 0).wellShaped Config.default = false ∧
      0 < Buf.cap Config.default .digest ∧ 0x040 = Buf.base Config.default .digest + 0) := by
  decide

theorem witness_StepStopsExactlyOnForbiddenActions :
    (inFlight 2 0 [.rdKey]).coreMoves = true ∧ (acting [.rdKey]).coreMoves = false ∧
      (acting [.rdKey]).permits .rdKey = true ∧ (acting [.memRead 0x024 4]).permits (.memRead 0x024 4) = false := by
  decide

theorem witness_ResetClearsEveryBit :
    (inFlight 2 1 [.reset]).coreMoves = false ∧ (inFlight 2 1 [.reset]).host.actions = .reset :: [] ∧
      (inFlight 2 1 [.reset]).busy = true := by
  decide

/-- StepKeepsTheInvariant and ParametersNeverChange, through a completion and through an issue. -/
theorem witness_StepKeepsTheInvariant :
    ((inFlight 1 0 []).inv ∧ ∃ t, step (inFlight 1 0 []) = .next t) ∧
      ((acting [.memWrite 0x000 4 2]).inv ∧ ∃ t, step (acting [.memWrite 0x000 4 2]) = .next t) :=
  ⟨⟨by decide, _, rfl⟩, by decide, _, rfl⟩

/-- A byte that a command changes, one that the host changes, one that a reset changes. -/
theorem witness_BytesChangeOnlyByTheirWriters :
    nextHas (step { inFlight 1 0 [] with ctrLo := 1 }) (fun t => t.byteAt .msgmem 7 != 0) = true ∧
      nextHas (step (acting [.memWrite 0x040 1 5])) (fun t => t.byteAt .digest 0 != 0) = true ∧
      nextHas (step { acting [.reset] with keymem := [(0, 0x01#8)] })
        (fun t => t.byteAt .keymem 0 != 1) = true ∧
      State.sound { inFlight 1 0 [] with ctrLo := 1 } := by
  decide +kernel

/-- The same for registers. -/
theorem witness_RegistersChangeOnlyByTheirWriters :
    nextHas (step (inFlight 1 0 [])) (fun t => t.readReg .msgLen != 0) = true ∧
      nextHas (step (acting [.memWrite 0x010 4 5])) (fun t => t.readReg .keyLen != 0) = true ∧
      nextHas (step { acting [.reset] with ctrHi := 1 }) (fun t => t.readReg .ctrHi != 1) = true := by
  decide +kernel

theorem witness_RunIsOneAtomicAction :
    (acting (HostAction.run .hmac)).portOpen = true ∧
      (acting (HostAction.run .hmac)).host.actions = HostAction.run .hmac ++ [] :=
  ⟨rfl, rfl⟩

/-- A load of each kind; one that fills its buffer, and one byte more. -/
theorem witness_LoadKeyActionsLoadTheKey :
    (∀ ld ∈ [HostAction.ldKey Config.default, HostAction.ldMsg Config.default,
        HostAction.ldTxt Config.default],
      (someHas (ld [0x4A]) fun as => decide ((acting as).sound ∧ (acting as).portOpen = true)) = true ∧
      (ld (List.replicate 160 0xFF)).isSome = true ∧ (ld (List.replicate 257 0xFF)).isSome = false) ∧
    (HostAction.ldKey Config.default (List.replicate 161 0xFF)).isSome = false ∧
    (HostAction.ldDig Config.default (List.replicate 20 0xFF)).isSome = true ∧
    (HostAction.ldDig Config.default (List.replicate 21 0xFF)).isSome = false ∧
    (acting (HostAction.ldCtr 0x100000000)).portOpen = true := by
  decide +kernel

/-- A read of the last register, and of CMD after an illegal word. -/
theorem witness_RegisterReadsReturnTheirValues :
    (acting [.memRead (4 * Reg.trunc.index) 4]).portOpen = true ∧
      (acting [.memWrite 0x000 4 0x105, .wait, .memRead 0x000 4]).portOpen = true := by
  decide

/-- RDDIG; RDTXT and RDKEY with a full buffer, and with a length one above it. -/
theorem witness_ReadActionsRecordTheBytes :
    ((acting (HostAction.rdDig Config.default)).sound ∧
      (acting (HostAction.rdDig Config.default)).portOpen = true) ∧
    (State.sound { acting [.rdTxt] with txtLen := 257 } ∧
      State.portOpen { acting [.rdTxt] with txtLen := 257 } = true) ∧
    ((256 : Word).toNat ≤ Config.default.txtCap ∧ Config.default.txtCap < (257 : Word).toNat) ∧
    (State.sound { acting [.rdKey] with keyLen := 161 } ∧
      State.portOpen { acting [.rdKey] with keyLen := 161 } = true) ∧
    (160 : Word).toNat ≤ Config.default.keyCap ∧ Config.default.keyCap < (161 : Word).toNat := by
  decide

/-- GroupsAreInverseBijections, over groups of both kinds. -/
theorem witness_GroupsAreInverseBijections :
    (ascii "fooba").length = 5 ∧ (ascii "MZXW6YTB").length = 8 ∧
      (textValues (ascii "MZXW6YTB")).isSome = true := by
  decide +kernel

theorem witness_DecodeAfterEncodeRestoresTheKey :
    State.sound { State.reset with keyLen := 160 } ∧ State.portOpen { State.reset with keyLen := 160 } = true ∧
      (160 : Word).toNat ≤ Config.default.keyCap ∧ (160 : Word).toNat % 5 = 0 := by
  decide

theorem witness_EncodeAfterDecodeRestoresTheText :
    (texted (ascii "MZXW6YTB")).sound ∧
      someHas ((texted (ascii "MZXW6YTB")).runCommand .b32dec) (·.err == .none) = true ∧
      (keyed (ascii "fooba") []).sound ∧
      someHas ((keyed (ascii "fooba") []).runCommand .b32enc) (·.err == .none) = true := by
  decide +kernel

/-- ScheduleFollowsItsRecurrence and CompressionFollowsItsRounds. -/
theorem witness_block : (Sha1.pad (ascii "abc")).length = 64 := by decide +kernel

theorem witness_Sha1ChainsItsBlocks : 0 < (Sha1.pad []).length / 64 := by decide

theorem witness_HmacKeyLaws :
    (List.replicate 63 (0x4B : Byte)).length ≤ 63 ∧ 64 < (List.replicate 65 (0x4B : Byte)).length := by
  simp

/-- The bounds of the domain of `extractDigits`. -/
theorem witness_ExtractDigitsIsDecimal : 1 ≤ 1 ∧ 2 ^ 31 - 1 < 2 ^ 31 ∧ (0 : Nat) = 0 := by decide

theorem witness_RemainingSecondsReachTheNextStep : (1 : Int) ≤ 1 ∧ (0 : ℚ) ≤ 0 := by decide

theorem witness_TokenIsTheTruncatedHmac :
    State.reset.sound ∧ State.reset.portOpen = true ∧
      (List.replicate 160 (0xFF : Byte)).length ≤ State.reset.cfg.keyCap ∧ buildCounter 59 30 0 = some 1 ∧
      buildCounter 59 30 (-2) = none ∧
      State.reset.decodeSecret (ascii "MZ=") = .error .invalidEncoding ∧
      (State.reset.decodeSecret (ascii "MZXW6YTB")).isOk = true := by
  decide +kernel

theorem witness_TokenActionsReadTheTruncatedValue :
    (1 : Nat) < 2 ^ 64 ∧
      (someHas (HostAction.token Config.default (ascii "12345678901234567890") 1) fun as =>
        decide ((acting as).sound ∧ (acting as).portOpen = true)) = true := by
  decide +kernel

/-- A window of two offsets around the counter 1, and one at the counter 0 whose lower offset has no
counter. -/
theorem witness_VerifyAcceptsExactlyTheWindow :
    ([59, 59] : List ℚ).length = 1 + 0 + 1 ∧
      (∀ k < 1 + 0 + 1, buildCounter (([59, 59] : List ℚ).getD k 0) 30 ((k : Int) - (1 : Nat)) ≠ none) ∧
      ∃ k < 1 + 0 + 1, buildCounter (([29, 29] : List ℚ).getD k 0) 30 ((k : Int) - (1 : Nat)) = none := by
  decide +kernel

theorem witness_GeneratedSecretDecodesToItsBytes :
    State.reset.sound ∧ State.reset.portOpen = true ∧ (List.replicate 20 (0xFF : Byte)).length = 20 := by
  decide

/-- One text for each clause, and a text that fills TXTMEM. -/
theorem witness_DecodeSecretReportsTypedFailures :
    ((ascii "MZ=").length ≤ State.reset.cfg.txtCap ∧ (ascii "MZ=").length % 8 ≠ 0) ∧
    ((ascii "mzxw6ytb").length % 8 = 0 ∧ ∃ c ∈ ascii "mzxw6ytb", b32val c = none) ∧
    ((List.replicate 256 (0x41 : Byte)).length ≤ State.reset.cfg.txtCap ∧
      (List.replicate 256 (0x41 : Byte)).length % 8 = 0 ∧
      ∀ c ∈ List.replicate 256 (0x41 : Byte), b32val c ≠ none) := by
  decide +kernel

/-- A sequence for each clause: twenty drawn bytes, a text that decodes, and one text for each failure. -/
theorem witness_SecretActionsReadWhatTheFunctionsReturn :
    (someHas (HostAction.generate Config.default (List.replicate 20 0xFF)) fun as =>
      decide ((acting as).sound ∧ (acting as).portOpen = true) &&
        ((acting as).generate (some (List.replicate 20 0xFF))).isOk) = true ∧
    (someHas (HostAction.decode Config.default (ascii "MZXW6YTB")) fun as =>
      decide ((acting (as ++ [.rdKey])).sound ∧ (acting (as ++ [.rdKey])).portOpen = true) &&
        ((acting (as ++ [.rdKey])).decodeSecret (ascii "MZXW6YTB")).isOk) = true ∧
    (∀ text ∈ [ascii "MZ=", ascii "mzxw6ytb"],
      (someHas (HostAction.decode Config.default text) fun as =>
        decide ((acting as).sound ∧ (acting as).portOpen = true) &&
          !((acting as).decodeSecret text).isOk) = true) := by
  decide +kernel

end Sys2Proof.Tests
end

section
/-! PROOFS. The family of 00_scope: the invariant that every step keeps (O31), the parameters that no step
changes (O33), and the exact condition under which a step has a next state (O28). -/

namespace Sys2Proof.Machine

/-! ### What a change of the host's side and a store keep -/

theorem hostOnly_cfg {s t : State} (h : hostOnly s t) : t.cfg = s.cfg := by
  rw [h]

theorem hostOnly_sound {s t : State} (h : hostOnly s t) (hs : s.sound) : t.sound := by
  rw [h]
  exact hs

/-- A change of the host's side that does not close the window while a command is in flight. -/
theorem hostOnly_busyConsistent {s t : State} (h : hostOnly s t)
    (hw : s.busy = true → s.host.window = true → t.host.window = true) (hs : s.busyConsistent) :
    t.busyConsistent := by
  rw [h]
  intro hb
  obtain ⟨he, hopen⟩ := hs hb
  exact ⟨he, hw hb hopen⟩

@[simp] theorem store_cfg (s : State) (l : Loc) (v : Word) : (s.store l v).cfg = s.cfg := by
  cases l with
  | reg r => cases r <;> rfl
  | byte b k => exact State.setBuffer_cfg s b _

/-- A register write starts a command only at CMD, and the issue clears ERR and opens the window. -/
theorem writeReg_busyConsistent {s : State} (hs : s.busyConsistent) (r : Reg) (v : Word) :
    (s.writeReg r v).busyConsistent := by
  cases r
  case cmd => exact fun _ => ⟨rfl, rfl⟩
  all_goals exact hs

theorem store_busyConsistent {s : State} (hs : s.busyConsistent) (l : Loc) (v : Word) :
    (s.store l v).busyConsistent := by
  cases l with
  | reg r => exact writeReg_busyConsistent hs r v
  | byte b k => simpa [State.busyConsistent, State.store, State.setByte] using hs

/-- An idle core meets what is asked of a command in flight. -/
theorem busyConsistent_of_idle {s : State} (h : s.busy = false) : s.busyConsistent := by
  simp [State.busyConsistent, h]

/-! ### The invariant -/

theorem complete_inv {s t : State} (hs : s.inv) (h : complete s = .next t) : t.inv :=
  ⟨complete_sound hs.1 h, busyConsistent_of_idle (complete_busy h)⟩

theorem hostAct_inv {a : HostAction} {s t : State} (hs : s.inv) (h : hostAct a s = .next t) : t.inv := by
  obtain ⟨hsound, hbusy⟩ := hs
  rcases hostAct_cases h with ⟨hh, hw⟩ | ⟨addr, n, v, l, -, hl, -, -, rfl⟩ | ⟨-, rfl⟩
  · exact ⟨hostOnly_sound hh hsound, hostOnly_busyConsistent hh hw hbusy⟩
  · exact ⟨store_sound hsound (of_locate hl).1 v, store_busyConsistent hbusy l v⟩
  · exact ⟨applyReset_sound hsound, busyConsistent_of_idle (State.applyReset_busy s)⟩

/-- The invariant does not speak of the host's list or of the delay. -/
theorem popAction_inv {s : State} (hs : s.inv) (rest : List HostAction) : (s.popAction rest).inv := hs

/-! ### The parameters -/

theorem hostAct_cfg {a : HostAction} {s t : State} (h : hostAct a s = .next t) : t.cfg = s.cfg := by
  rcases hostAct_cases h with ⟨hh, -⟩ | ⟨addr, n, v, l, -, -, -, -, rfl⟩ | ⟨-, rfl⟩
  · exact hostOnly_cfg hh
  · exact store_cfg s l v
  · exact State.applyReset_cfg s

/-! ### When an action of the host has a next state -/

theorem atLocation_next_iff {s : State} {addr n : Nat} {act : Loc → Host.Outcome State Fault Refusal} :
    (∃ t, atLocation s addr n act = .next t) ↔
      ∃ l, locate s.cfg addr = some l ∧ l.width = n ∧ ∃ t, act l = .next t := by
  constructor
  · rintro ⟨t, h⟩
    obtain ⟨l, hl, hn, ht⟩ := atLocation_cases h
    exact ⟨l, hl, hn, t, ht⟩
  · rintro ⟨l, hl, hn, t, ht⟩
    exact ⟨t, by simp [atLocation, hl, hn, ht]⟩

theorem portRead_next_iff {s : State} {l : Loc} :
    (∃ t, portRead s l = .next t) ↔ l = .reg .status ∨ s.portOpen = true := by
  unfold portRead
  split_ifs with hl ho <;> simp [*]

theorem portWrite_next_iff {s : State} {l : Loc} {v : Word} :
    (∃ t, portWrite s l v = .next t) ↔ s.portOpen = true := by
  unfold portWrite
  split_ifs with ho <;> simp [ho]

theorem readCounted_next_iff {s : State} {r : Reg} {b : Buf} :
    (∃ t, readCounted s r b = .next t) ↔ s.portOpen = true := by
  unfold readCounted
  split_ifs with ho <;> simp [ho]

theorem readNextByte_next_iff {s : State} {b : Buf} {k more : Nat} :
    (∃ t, readNextByte s b k more = .next t) ↔ k < b.cap s.cfg ∧ s.portOpen = true := by
  unfold readNextByte
  split_ifs with hk ho <;> simp [*]

/-- The permitted reads, location by location. -/
theorem permits_memRead_iff {s : State} {addr n : Nat} :
    s.permits (.memRead addr n) = true ↔
      ∃ l, locate s.cfg addr = some l ∧ l.width = n ∧ (l = .reg .status ∨ s.portOpen = true) := by
  cases hl : locate s.cfg addr <;> simp [State.permits, HostAction.wellShaped, hl, or_comm]

/-- The permitted writes, location by location. -/
theorem permits_memWrite_iff {s : State} {addr n : Nat} {v : Word} :
    s.permits (.memWrite addr n v) = true ↔
      ∃ l, locate s.cfg addr = some l ∧ l.width = n ∧ s.portOpen = true := by
  cases hl : locate s.cfg addr <;> simp [State.permits, HostAction.wellShaped, hl]

/-- An action of the host has a next state exactly when it is permitted. -/
theorem hostAct_next_iff {a : HostAction} {s : State} :
    (∃ t, hostAct a s = .next t) ↔ s.permits a = true := by
  cases a with
  | memRead addr n => simp only [hostAct, atLocation_next_iff, portRead_next_iff, permits_memRead_iff]
  | memWrite addr n v => simp only [hostAct, atLocation_next_iff, portWrite_next_iff, permits_memWrite_iff]
  | reset => exact ⟨fun _ => rfl, fun _ => ⟨_, rfl⟩⟩
  | wait => exact ⟨fun _ => rfl, fun _ => ⟨_, rfl⟩⟩
  | rdTxt => exact readCounted_next_iff
  | rdKey => exact readCounted_next_iff
  | readBytes b k more =>
    simp only [hostAct, readNextByte_next_iff, State.permits, HostAction.wellShaped, Bool.and_eq_true,
      decide_eq_true_eq]

/-- What is permitted does not depend on the host's list or on the delay. -/
@[simp] theorem popAction_permits (s : State) (rest : List HostAction) (a : HostAction) :
    (s.popAction rest).permits a = s.permits a := rfl

/-- Where the run has ended, a step stands still. -/
theorem step_of_no_actions {s : State} (h : s.coreMoves = false) (ha : s.host.actions = []) :
    step s = .next s := by
  simp [step, h, ha]

/-! ### The obligations -/

/-- Settles O31: a completion leaves the core idle, and of the host's actions only the issue starts a
command, which clears ERR and opens the window. -/
theorem stepKeepsTheInvariant : Obligations.StepKeepsTheInvariant := by
  intro s t hs h
  rcases step_cases h with ⟨-, hc⟩ | ⟨-, -, rfl⟩ | ⟨a, rest, -, -, ha⟩
  · exact complete_inv hs hc
  · exact hs
  · exact hostAct_inv (popAction_inv hs rest) ha

/-- Settles O28: the completion always answers, and an action of the host answers exactly when it is
permitted. -/
theorem stepStopsExactlyOnForbiddenActions : Obligations.StepStopsExactlyOnForbiddenActions := by
  refine fun s => ⟨fun hm => ?_, fun hm => ?_⟩
  · rw [step_of_coreMoves hm]
    exact complete_next s
  · cases ha : s.host.actions with
    | nil => simp [step_of_no_actions hm ha]
    | cons a rest =>
      rw [step_of_actions hm ha, hostAct_next_iff]
      simp

/-- Settles O33: the completion and each of the host's actions carry the parameters along. -/
theorem parametersNeverChange : Obligations.ParametersNeverChange := by
  intro s t h
  rcases step_cases h with ⟨-, hc⟩ | ⟨-, -, rfl⟩ | ⟨a, rest, -, -, ha⟩
  · obtain ⟨-, -, hcfg⟩ := complete_host hc
    exact hcfg
  · rfl
  · exact (hostAct_cfg ha).trans (State.popAction_cfg s rest)

end Sys2Proof.Machine
end

section
/-! PROOFS. The family of 10_state: the state after reset (O30, O32), what a command writes and what it
depends on (O16, O17), what STATUS shows (O22), and what changes BUSY, ERR and the registers (O20, O35). -/

namespace Sys2Proof.Machine

/-! ### STATUS -/

/-- STATUS has BUSY in bit 0, ERR in bits 10:8 and zeros elsewhere (10_state R12). -/
theorem status_fields (s : State) :
    s.status.getLsbD 0 = s.busy ∧ s.status.extractLsb' 8 3 = s.err.code ∧
      s.status.extractLsb' 1 7 = 0 ∧ s.status.extractLsb' 11 21 = 0 := by
  unfold State.status
  cases s.err <;> cases s.busy <;> decide

/-- STATUS shows BUSY and ERR, and nothing else. -/
theorem status_congr {s t : State} (hb : s.busy = t.busy) (he : s.err = t.err) : s.status = t.status := by
  simp [State.status, hb, he]

theorem status_of_idle {s : State} (h : s.busy = false) : s.status = s.err.code.setWidth 32 <<< 8 := by
  simp [State.status, h]

theorem status_of_busy {s : State} (hb : s.busy = true) (he : s.err = .none) : s.status = 1 := by
  simp [State.status, ErrCode.code, hb, he]

/-! ### The cleared core -/

theorem readReg_cleared (c : Config) (hs : HostSide) (r : Reg) : (State.cleared c hs).readReg r = 0 := by
  cases r with
  | status => exact status_of_idle rfl
  | _ => rfl

theorem byteAt_cleared (c : Config) (hs : HostSide) (b : Buf) (k : Nat) :
    (State.cleared c hs).byteAt b k = 0 := by
  cases b <;> rfl

/-- A cleared core with legal parameters meets the invariant: its buffers list no byte, and no command is
in flight. -/
theorem cleared_inv {c : Config} (hc : c.legal = true) (hs : HostSide) : (State.cleared c hs).inv :=
  ⟨⟨hc, Memory.wf_nil _, Memory.wf_nil _, Memory.wf_nil _, Memory.wf_nil _⟩, busyConsistent_of_idle rfl⟩

/-! ### The destinations of a command -/

@[simp] theorem commandWrites_busy (i : Instr) (s : State) : (commandWrites i s).busy = s.busy := by
  cases i <;> simp only [commandWrites]

@[simp] theorem commandWrites_err (i : Instr) (s : State) : (commandWrites i s).err = s.err := by
  cases i <;> simp only [commandWrites]

/-- The writes of a command to the registers: at most its own one (10_state R10). -/
theorem commandWrites_readReg {i : Instr} {r : Reg} (hw : writtenReg i ≠ some r) (s : State) :
    (commandWrites i s).readReg r = s.readReg r := by
  cases r with
  | cmd => exact commandWrites_cmd i s
  | status => exact status_congr (commandWrites_busy i s) (commandWrites_err i s)
  | ctrHi => exact commandWrites_ctrHi i s
  | ctrLo => exact commandWrites_ctrLo i s
  | keyLen => cases i with
    | b32dec => exact absurd rfl hw
    | _ => simp only [commandWrites, State.readReg]
  | msgLen => cases i with
    | ctrser => exact absurd rfl hw
    | _ => simp only [commandWrites, State.readReg]
  | txtLen => cases i with
    | b32enc => exact absurd rfl hw
    | _ => simp only [commandWrites, State.readReg]
  | offset => cases i with
    | doff => exact absurd rfl hw
    | _ => simp only [commandWrites, State.readReg]
  | trunc => cases i with
    | trunc => exact absurd rfl hw
    | _ => simp only [commandWrites, State.readReg]

/-- The bytes a command stores are the first ones of its one buffer, as many as `State.stored` says. -/
theorem commandWrites_byteAt {i : Instr} {s : State} {b : Buf} {k : Nat}
    (h : ∀ n, s.stored i = some (b, n) → n ≤ k) : (commandWrites i s).byteAt b k = s.byteAt b k := by
  cases b with
  | digest => cases i with
    | hmac =>
      have hk : 20 ≤ k := h _ rfl
      simp only [commandWrites, State.byteAt, State.buffer]
      exact Memory.read_writeBytes_outside (.inr (by rw [length_hmacSha1]; omega))
    | _ => simp only [commandWrites, State.byteAt, State.buffer]
  | keymem => cases i with
    | b32dec =>
      have hk : 5 * s.txtLen.toNat / 8 ≤ k := h _ rfl
      simp only [commandWrites, State.byteAt, State.buffer]
      exact Memory.read_writeBytes_outside (.inr (by rw [length_decodeGroups]; omega))
    | _ => simp only [commandWrites, State.byteAt, State.buffer]
  | msgmem => cases i with
    | ctrser =>
      have hk : 8 ≤ k := h _ rfl
      simp only [commandWrites, State.byteAt, State.buffer]
      exact Memory.read_writeBytes_outside (.inr (by rw [length_toBe]; omega))
    | _ => simp only [commandWrites, State.byteAt, State.buffer]
  | txtmem => cases i with
    | b32enc =>
      have hk : 8 * s.keyLen.toNat / 5 ≤ k := h _ rfl
      simp only [commandWrites, State.byteAt, State.buffer]
      exact Memory.read_writeBytes_outside (.inr (by rw [length_encodeGroups]; omega))
    | _ => simp only [commandWrites, State.byteAt, State.buffer]

theorem readReg_finish {r : Reg} (hr : r ≠ .status) (s : State) (e : ErrCode) :
    (s.finish e).readReg r = s.readReg r := by
  cases r with
  | status => exact absurd rfl hr
  | _ => rfl

theorem byteAt_finish (s : State) (e : ErrCode) (b : Buf) (k : Nat) :
    (s.finish e).byteAt b k = s.byteAt b k := by
  cases b <;> rfl

theorem exec_readReg {i : Instr} {s t : State} {r : Reg} (h : exec i s = .next t) (hr : r ≠ .status)
    (hw : writtenReg i ≠ some r) : t.readReg r = s.readReg r := by
  rcases exec_cases i s with ⟨-, hx⟩ | ⟨-, hx⟩ <;> obtain rfl := Host.Outcome.next.inj (hx.symm.trans h)
  · rw [readReg_finish hr, commandWrites_readReg hw]
  · exact readReg_finish hr s _

theorem exec_byteAt {i : Instr} {s t : State} {b : Buf} {k : Nat} (h : exec i s = .next t)
    (hk : ∀ n, s.stored i = some (b, n) → n ≤ k) : t.byteAt b k = s.byteAt b k := by
  rcases exec_cases i s with ⟨-, hx⟩ | ⟨-, hx⟩ <;> obtain rfl := Host.Outcome.next.inj (hx.symm.trans h)
  · rw [byteAt_finish, commandWrites_byteAt hk]
  · exact byteAt_finish s _ b k

/-- What every command leaves as it was, whether it succeeds or not. -/
theorem exec_frame {i : Instr} {s t : State} (h : exec i s = .next t) :
    t.busy = false ∧ t.cfg = s.cfg ∧ t.cmd = s.cmd ∧ t.ctrHi = s.ctrHi ∧ t.ctrLo = s.ctrLo ∧
      t.host = s.host := by
  rcases exec_cases i s with ⟨-, hx⟩ | ⟨-, hx⟩ <;> obtain rfl := Host.Outcome.next.inj (hx.symm.trans h) <;>
    simp

/-! ### The operands of a command -/

/-- States that agree on the bytes an operand names have the same operand. -/
theorem readBytes_of_agree {s t : State} {b : Buf} {n : Nat} (h : agreeBytes s t b n) :
    Memory.readBytes (s.buffer b) 0 n = Memory.readBytes (t.buffer b) 0 n :=
  Memory.readBytes_congr fun k _ hk => h k (by omega)

theorem keyBytes_of_agree {s t : State} (hl : s.keyLen = t.keyLen)
    (h : agreeBytes s t .keymem s.keyLen.toNat) : s.keyBytes = t.keyBytes := by
  rw [State.keyBytes, State.keyBytes, ← hl]
  exact readBytes_of_agree h

theorem msgBytes_of_agree {s t : State} (hl : s.msgLen = t.msgLen)
    (h : agreeBytes s t .msgmem s.msgLen.toNat) : s.msgBytes = t.msgBytes := by
  rw [State.msgBytes, State.msgBytes, ← hl]
  exact readBytes_of_agree h

theorem txtBytes_of_agree {s t : State} (hl : s.txtLen = t.txtLen)
    (h : agreeBytes s t .txtmem s.txtLen.toNat) : s.txtBytes = t.txtBytes := by
  rw [State.txtBytes, State.txtBytes, ← hl]
  exact readBytes_of_agree h

/-- The error depends on the parameters and the operands alone. -/
theorem commandError_of_agree {i : Instr} {s t : State} (hc : s.cfg = t.cfg) (h : readsAgree i s t) :
    commandError i s = commandError i t := by
  cases i with
  | ctrser => rfl
  | hmac =>
    obtain ⟨hk, hm, -, -⟩ := h
    simp only [commandError, hc, hk, hm]
  | doff => rfl
  | trunc => rfl
  | b32dec =>
    obtain ⟨hl, hb⟩ := h
    simp only [commandError, hc, txtBytes_of_agree hl hb, hl]
  | b32enc =>
    obtain ⟨hl, -⟩ := h
    simp only [commandError, hc, hl]

/-- Two canonical buffers of one capacity agree on the bytes written to both. -/
theorem read_writeBytes_agree {cap : Nat} {m m' : Memory} {bs : List Byte} (hm : Memory.wf cap m)
    (hm' : Memory.wf cap m') (h : bs.length ≤ cap) {k : Nat} (hk : k < bs.length) :
    Memory.read (Memory.writeBytes m 0 bs) k = Memory.read (Memory.writeBytes m' 0 bs) k := by
  rw [Memory.read_writeBytes_of_lt hm h hk, Memory.read_writeBytes_of_lt hm' h hk]

/-- The window of TRUNC is made of four bytes of DIGEST. -/
theorem windowValue_of_agree {s t : State} {o : Nat}
    (h : ∀ k < 4, s.byteAt .digest (o + k) = t.byteAt .digest (o + k)) :
    windowValue s o = windowValue t o := by
  have hb : ∀ k < 4, s.digestByte (o + k) = t.digestByte (o + k) := h
  have h0 : s.digestByte o = t.digestByte o := hb 0 (by omega)
  simp only [windowValue, h0, hb 1 (by omega), hb 2 (by omega), hb 3 (by omega)]

/-- What a command that succeeds writes depends on its operands alone. -/
theorem commandWrites_of_agree {i : Instr} {s t : State} (hs : s.sound) (ht : t.sound) (hc : s.cfg = t.cfg)
    (he : commandError i s = .none) (h : readsAgree i s t) :
    writesAgree i (commandWrites i s) (commandWrites i t) := by
  obtain ⟨hlegal, hdig, hkey, hmsg, htxt⟩ := hs
  obtain ⟨-, hdig', hkey', hmsg', htxt'⟩ := ht
  rw [← hc] at hkey' hmsg' htxt'
  obtain ⟨-, -, hmsgCap, -⟩ := sizesLegal_of_legal hlegal
  cases i with
  | ctrser =>
    obtain ⟨hhi, hlo⟩ := h
    have hctr : s.counter = t.counter := by simp only [State.counter, hhi, hlo]
    refine ⟨rfl, fun k hk => ?_⟩
    simp only [State.byteAt, commandWrites, buffer_msgmem, ← hctr]
    exact read_writeBytes_agree hmsg hmsg' (by simp; omega) (by simpa using hk)
  | hmac =>
    obtain ⟨hkl, hml, hkb, hmb⟩ := h
    intro k hk
    simp only [State.byteAt, commandWrites, buffer_digest, ← keyBytes_of_agree hkl hkb,
      ← msgBytes_of_agree hml hmb]
    exact read_writeBytes_agree hdig hdig' (by simp) (by simpa using hk)
  | doff =>
    have hd : s.digestByte 19 = t.digestByte 19 := h
    simp only [writesAgree, commandWrites, hd]
  | trunc =>
    obtain ⟨ho, hb⟩ := h
    simp only [writesAgree, commandWrites, ← ho, windowValue_of_agree hb]
  | b32dec =>
    obtain ⟨hl, hb⟩ := h
    obtain ⟨hcap, hdiv, -⟩ := b32dec_success.1 he
    refine ⟨by simp only [commandWrites, hl], fun k hk => ?_⟩
    simp only [State.byteAt, commandWrites, buffer_keymem, ← txtBytes_of_agree hl hb, ← hl] at hk ⊢
    simp only [Config.txtCap, BitVec.toNat_ofNat] at hcap hk
    exact read_writeBytes_agree hkey hkey' (by simp; omega) (by simp; omega)
  | b32enc =>
    obtain ⟨hl, hb⟩ := h
    obtain ⟨hcap, hdiv⟩ := b32enc_success.1 he
    refine ⟨by simp only [commandWrites, hl], fun k hk => ?_⟩
    simp only [State.byteAt, commandWrites, buffer_txtmem, ← keyBytes_of_agree hl hb, ← hl] at hk ⊢
    simp only [BitVec.toNat_ofNat] at hk
    exact read_writeBytes_agree htxt htxt' (by simp [Config.txtCap]; omega) (by simp; omega)

/-- BUSY and ERR are no part of what a command writes. -/
theorem writesAgree_finish {i : Instr} {s t : State} (e e' : ErrCode) (h : writesAgree i s t) :
    writesAgree i (s.finish e) (t.finish e') := by
  cases i <;> exact h

/-! ### What changes BUSY, ERR and the registers -/

/-- What a step can do to the core: complete a command in flight, nothing, a store of the host to the
location it names while the port is open, or a reset. -/
theorem step_core_cases {s t : State} (h : step s = .next t) :
    (s.busy = true ∧ complete s = .next t) ∨ hostOnly s t ∨
      (∃ l v rest, s.host.actions = .memWrite (l.offset s.cfg) l.width v :: rest ∧ s.portOpen = true ∧
        t = (s.popAction rest).store l v) ∨
      (∃ rest, s.host.actions = .reset :: rest ∧ t = (s.popAction rest).applyReset) := by
  rcases step_cases h with ⟨hm, hc⟩ | ⟨-, -, rfl⟩ | ⟨a, rest, -, ha, hx⟩
  · simp only [State.coreMoves, Bool.and_eq_true] at hm
    exact .inl ⟨hm.1, hc⟩
  · exact .inr (.inl rfl)
  · rcases hostAct_cases hx with ⟨hh, -⟩ | ⟨addr, n, v, l, rfl, hl, rfl, ho, rfl⟩ | ⟨rfl, rfl⟩
    · exact .inr (.inl hh)
    · obtain ⟨-, rfl⟩ := of_locate hl
      exact .inr (.inr (.inl ⟨l, v, rest, ha, ho, rfl⟩))
    · exact .inr (.inr (.inr ⟨rest, ha, rfl⟩))

theorem readReg_of_hostOnly {s t : State} (h : hostOnly s t) (r : Reg) : t.readReg r = s.readReg r := by
  rw [h]
  cases r <;> rfl

@[simp] theorem popAction_readReg (s : State) (rest : List HostAction) (r : Reg) :
    (s.popAction rest).readReg r = s.readReg r := by
  cases r <;> rfl

/-- A store elsewhere than at CMD keeps BUSY and ERR. -/
theorem store_flags {l : Loc} (h : l ≠ .reg .cmd) (s : State) (v : Word) :
    (s.store l v).busy = s.busy ∧ (s.store l v).err = s.err := by
  cases l with
  | reg r => cases r with
    | cmd => exact absurd rfl h
    | _ => exact ⟨rfl, rfl⟩
  | byte b k => exact ⟨State.setBuffer_busy s b _, State.setBuffer_err s b _⟩

/-- A write of a register changes no other but STATUS, and never TRUNC (20_memory R43). -/
theorem readReg_writeReg {r r' : Reg} (hr : r ≠ .status) (h : r' ≠ r ∨ r = .trunc) (s : State) (v : Word) :
    (s.writeReg r' v).readReg r = s.readReg r := by
  cases r with
  | cmd => cases r' with
    | cmd => simp at h
    | _ => rfl
  | status => exact absurd rfl hr
  | ctrHi => cases r' with
    | ctrHi => simp at h
    | _ => rfl
  | ctrLo => cases r' with
    | ctrLo => simp at h
    | _ => rfl
  | keyLen => cases r' with
    | keyLen => simp at h
    | _ => rfl
  | msgLen => cases r' with
    | msgLen => simp at h
    | _ => rfl
  | txtLen => cases r' with
    | txtLen => simp at h
    | _ => rfl
  | offset => cases r' with
    | offset => simp at h
    | _ => rfl
  | trunc => cases r' <;> rfl

theorem readReg_store {l : Loc} {r : Reg} (hr : r ≠ .status) (h : l ≠ .reg r ∨ r = .trunc) (s : State)
    (v : Word) : (s.store l v).readReg r = s.readReg r := by
  cases l with
  | reg r' => exact readReg_writeReg hr (h.imp_left fun hne heq => hne (congrArg Loc.reg heq)) s v
  | byte b k => exact State.setBuffer_readReg s b _ r

/-- The completion changes a register other than STATUS only for the command that writes it. -/
theorem complete_writer {s t : State} {r : Reg} (h : complete s = .next t) (hr : r ≠ .status)
    (hne : t.readReg r ≠ s.readReg r) : ∃ i, s.cmd = encode i ∧ exec i s = .next t ∧ writtenReg i = some r := by
  rcases complete_cases h with ⟨i, hi, hx⟩ | ⟨-, rfl⟩
  · exact ⟨i, hi, hx, not_imp_comm.1 (exec_readReg hx hr) hne⟩
  · exact absurd (readReg_finish hr s _) hne

/-- The part of O35 on the registers other than STATUS. -/
theorem step_writer {s t : State} {r : Reg} (hr : r ≠ .status) (h : step s = .next t)
    (hne : t.readReg r ≠ s.readReg r) :
    (∃ i, s.busy = true ∧ s.cmd = encode i ∧ exec i s = .next t ∧ writtenReg i = some r) ∨
    (∃ v rest, r ≠ .trunc ∧ s.host.actions = .memWrite (4 * r.index) 4 v :: rest ∧ s.portOpen = true) ∨
    (∃ rest, s.host.actions = .reset :: rest ∧ t.readReg r = 0) := by
  rcases step_core_cases h with ⟨hb, hc⟩ | hh | ⟨l, v, rest, ha, ho, rfl⟩ | ⟨rest, ha, rfl⟩
  · obtain ⟨i, hi, hx, hw⟩ := complete_writer hc hr hne
    exact .inl ⟨i, hb, hi, hx, hw⟩
  · exact absurd (readReg_of_hostOnly hh r) hne
  · have hl : l = .reg r ∧ r ≠ .trunc := by
      by_contra hno
      refine hne ((readReg_store hr ?_ _ v).trans (popAction_readReg s rest r))
      tauto
    obtain ⟨rfl, htrunc⟩ := hl
    exact .inr (.inl ⟨v, rest, htrunc, ha, ho⟩)
  · exact .inr (.inr ⟨rest, ha, readReg_cleared _ _ r⟩)

/-- The part of O35 on STATUS. -/
theorem step_status_writer {s t : State} (h : step s = .next t) (hne : t.status ≠ s.status) :
    (s.busy = true ∧ complete s = .next t ∧ t.status = t.err.code.setWidth 32 <<< 8) ∨
    (∃ v rest, s.host.actions = .memWrite 0x000 4 v :: rest ∧ s.portOpen = true ∧ t.status = 1) ∨
    (∃ rest, s.host.actions = .reset :: rest ∧ t.status = 0) := by
  rcases step_core_cases h with ⟨hb, hc⟩ | hh | ⟨l, v, rest, ha, ho, rfl⟩ | ⟨rest, ha, rfl⟩
  · exact .inl ⟨hb, hc, status_of_idle (complete_busy hc)⟩
  · exact absurd (readReg_of_hostOnly hh .status) hne
  · by_cases hl : l = .reg .cmd
    · subst hl
      exact .inr (.inl ⟨v, rest, ha, ho, status_of_busy rfl rfl⟩)
    · obtain ⟨hbusy, herr⟩ := store_flags hl (s.popAction rest) v
      exact absurd (status_congr hbusy herr) hne
  · exact .inr (.inr ⟨rest, ha, readReg_cleared _ _ .status⟩)

/-! ### The obligations -/

/-- Settles O16: the writes of a command are `commandWrites`, and an error writes STATUS alone. -/
theorem commandsWriteOnlyTheirDestinations : Obligations.CommandsWriteOnlyTheirDestinations := by
  intro i s t h
  obtain ⟨hbusy, hcfg, hcmd, hhi, hlo, hhost⟩ := exec_frame h
  exact ⟨hbusy, hcfg, hcmd, hhi, hlo, hhost, fun r => exec_readReg h, fun b k => exec_byteAt h⟩

/-- Settles O17: the error and the writes are functions of the operands. -/
theorem commandsDependOnlyOnWhatTheyRead : Obligations.CommandsDependOnlyOnWhatTheyRead := by
  intro i s₁ s₂ t₁ t₂ hs₁ hs₂ hc hr h₁ h₂
  have herr := commandError_of_agree hc hr
  refine ⟨by rw [exec_err h₁, exec_err h₂, herr], fun ht => ?_⟩
  have he : commandError i s₁ = .none := by rw [← exec_err h₁, ht]
  obtain rfl := Host.Outcome.next.inj ((exec_of_success he).symm.trans h₁)
  obtain rfl := Host.Outcome.next.inj ((exec_of_success (herr ▸ he)).symm.trans h₂)
  exact writesAgree_finish _ _ (commandWrites_of_agree hs₁ hs₂ hc he hr)

/-- Settles O20: of the things a step can do, only the issue, the completion and the reset touch BUSY and
ERR. -/
theorem busyIsSetByIssueAndClearedByCompletionOrReset :
    Obligations.BusyIsSetByIssueAndClearedByCompletionOrReset := by
  intro s t h
  rcases step_core_cases h with ⟨hb, hc⟩ | hh | ⟨l, v, rest, ha, ho, rfl⟩ | ⟨rest, ha, rfl⟩
  · have ht := complete_busy hc
    exact ⟨by simp [hb], fun _ _ => .inl hc, fun _ => .inl ⟨hb, ht, hc⟩⟩
  · have hbusy : t.busy = s.busy := by rw [hh]
    have herr : t.err = s.err := by rw [hh]
    exact ⟨fun hs ht => absurd ht (by simp [hbusy, hs]),
      fun hs ht => absurd ht (by simp [hbusy, hs]), fun hne => absurd herr hne⟩
  · by_cases hl : l = .reg .cmd
    · subst hl
      exact ⟨fun _ _ => ⟨v, rest, ha, rfl⟩, fun _ hi => absurd hi (by simp [State.store, State.writeReg]),
        fun _ => .inr (.inl ⟨rfl, rfl, v, rest, ha, rfl⟩)⟩
    · obtain ⟨hbusy, herr⟩ := store_flags hl (s.popAction rest) v
      exact ⟨fun hs ht => absurd ht (by simp [hbusy, hs]),
        fun hs ht => absurd ht (by simp [hbusy, hs]), fun hne => absurd herr hne⟩
  · exact ⟨fun _ hb => absurd hb (by simp), fun _ _ => .inr ⟨rest, ha⟩,
      fun _ => .inr (.inr ⟨rfl, rfl, rest, ha⟩)⟩

/-- Settles O22: the access is a read of STATUS, which records the word and touches the host's side alone. -/
theorem statusReadReturnsErrAndBusy : Obligations.StatusReadReturnsErrAndBusy := by
  intro s rest hm ha
  obtain ⟨hbusy, herr, hlow, hhigh⟩ := status_fields s
  refine ⟨(s.popAction rest).readStatus, s.status, ?_, rfl, rfl, rfl, hbusy, herr, hlow, hhigh, ?_, ?_⟩
  · rw [step_of_actions hm ha, hostAct_readStatus]
  · intro hinv hb
    exact status_of_busy hb (hinv.2 hb).1
  · simp

/-- Settles O35: the completion writes the command's register and STATUS, the host's store the register it
names, and the reset all of them. -/
theorem registersChangeOnlyByTheirWriters : Obligations.RegistersChangeOnlyByTheirWriters :=
  ⟨fun _ _ _ hr h hne => step_writer hr h hne, fun _ _ h hne => step_status_writer h hne⟩

/-- Settles O30: the state after reset is the cleared core, which reads 0 everywhere. -/
theorem resetStateIsZero : Obligations.ResetStateIsZero :=
  ⟨rfl, rfl, rfl, readReg_cleared _ _ .status, rfl, rfl, rfl, rfl, rfl, rfl, rfl, byteAt_cleared _ _⟩

/-- Settles O32: the default parameters are legal, and the state after reset is a cleared core. -/
theorem resetMeetsTheInvariant : Obligations.ResetMeetsTheInvariant :=
  cleared_inv (by decide) HostSide.idle

end Sys2Proof.Machine
end

section
/-! PROOFS. The family of 20_memory: the map (O25, O26), what an access does and leaves unchanged (O23, O24,
O57), which accesses are refused (O27), and what changes a byte of a buffer (O34). -/

namespace Sys2Proof.Machine

/-! ### The map -/

theorem default_legal : Config.default.legal = true := by decide

/-- Above the registers, an offset of no buffer byte is unassigned. -/
theorem locate_eq_none_of_no_byte {c : Config} {addr : Nat} (ha : 0x024 ≤ addr)
    (h : ∀ (b : Buf) (k : Nat), k < b.cap c → addr ≠ b.base c + k) : locate c addr = none := by
  refine Option.eq_none_iff_forall_ne_some.2 fun l hl => ?_
  obtain ⟨hex, hoff⟩ := of_locate hl
  cases l with
  | reg r =>
    have hr := index_lt r
    simp only [Loc.offset] at hoff
    omega
  | byte b k => exact h b k (by simpa [Loc.exists] using hex) hoff.symm

/-! ### What a store and a change of the host's side keep -/

@[simp] theorem popAction_byteAt (s : State) (rest : List HostAction) (b : Buf) (k : Nat) :
    (s.popAction rest).byteAt b k = s.byteAt b k := by
  cases b <;> rfl

@[simp] theorem popAction_valueAt (s : State) (rest : List HostAction) (l : Loc) :
    (s.popAction rest).valueAt l = s.valueAt l := by
  cases l <;> simp [State.valueAt]

theorem byteAt_of_hostOnly {s t : State} (h : hostOnly s t) (b : Buf) (k : Nat) :
    t.byteAt b k = s.byteAt b k := by
  rw [h]
  cases b <;> rfl

/-- No register is part of a buffer. -/
@[simp] theorem byteAt_writeReg (s : State) (r : Reg) (v : Word) (b : Buf) (k : Nat) :
    (s.writeReg r v).byteAt b k = s.byteAt b k := by
  cases r <;> cases b <;> rfl

/-- A store changes no byte but the one it names. -/
theorem byteAt_store_ne {s : State} (hs : s.sound) {l : Loc} {b : Buf} {k : Nat} (h : l ≠ .byte b k)
    (v : Word) : (s.store l v).byteAt b k = s.byteAt b k := by
  cases l with
  | reg r => exact byteAt_writeReg s r v b k
  | byte b' k' =>
    refine (byteAt_setByte hs b' b k' k _).trans (if_neg ?_)
    rintro ⟨rfl, rfl⟩
    exact h rfl

theorem byteAt_store_same {s : State} (hs : s.sound) (b : Buf) (k : Nat) (v : Word) :
    (s.store (.byte b k) v).byteAt b k = v.extractLsb' 0 8 := by
  rw [State.store, byteAt_setByte hs, if_pos ⟨rfl, rfl⟩, BitVec.setWidth_eq_extractLsb' (by decide)]

/-- A store elsewhere than at CMD is no issue: the host's side is as it was. -/
theorem store_host {l : Loc} (h : l ≠ .reg .cmd) (s : State) (v : Word) : (s.store l v).host = s.host := by
  cases l with
  | reg r => cases r with
    | cmd => exact absurd rfl h
    | _ => rfl
  | byte b k => exact State.setBuffer_host s b _

theorem store_portOpen {l : Loc} (h : l ≠ .reg .cmd) (s : State) (v : Word) :
    (s.store l v).portOpen = s.portOpen := by
  simp only [State.portOpen, (store_flags h s v).1, store_host h s v]

/-- A write of a register other than CMD changes no other register (20_memory R43). -/
theorem readReg_writeReg_ne {r r' : Reg} (hc : r ≠ .cmd) (h : r' ≠ r) (s : State) (v : Word) :
    (s.writeReg r v).readReg r' = s.readReg r' := by
  by_cases hr : r' = .status
  · subst hr
    obtain ⟨hbusy, herr⟩ := store_flags (l := .reg r) (by simpa using hc) s v
    exact status_congr hbusy herr
  · exact readReg_writeReg hr (.inl h.symm) s v

/-! ### The values of OFFSET and STATUS -/

/-- OFFSET keeps bits 3:0 of what is written (10_state R17). -/
theorem setWidth_four_setWidth (v : Word) : (v.setWidth 4).setWidth 32 = v &&& 0xF := by
  refine BitVec.eq_of_toNat_eq ?_
  rw [BitVec.toNat_and, show (0xF : Word).toNat = 2 ^ 4 - 1 from rfl, Nat.and_two_pow_sub_one_eq_mod,
    BitVec.toNat_setWidth, BitVec.toNat_setWidth]
  omega

/-- STATUS of an idle core is ERR in bits 10:8 (10_state R12). -/
theorem toNat_status_of_idle {s : State} (h : s.busy = false) :
    s.status.toNat = s.err.code.toNat * 2 ^ 8 := by
  rw [status_of_idle h]
  cases s.err <;> rfl

/-! ### One access of an open port -/

/-- A read of any location, STATUS included, records its value and touches the host's side alone. -/
theorem step_read {s : State} {addr : Nat} {l : Loc} {rest : List HostAction} (ho : s.portOpen = true)
    (hl : locate s.cfg addr = some l) (ha : s.host.actions = .memRead addr l.width :: rest) :
    ∃ t, step s = .next t ∧ t = { s with host := t.host } ∧ t.host.actions = rest ∧
      t.host.reads = s.host.reads ++ [s.valueAt l] ∧ t.portOpen = true := by
  have hstep := step_of_actions (coreMoves_of_portOpen ho) ha
  by_cases hs : l = .reg .status
  · subst hs
    obtain ⟨-, rfl⟩ := of_locate hl
    obtain ⟨hbusy, -⟩ := portOpen_iff.1 ho
    exact ⟨_, hstep.trans (hostAct_readStatus _), rfl, rfl, rfl, portOpen_iff.2 ⟨hbusy, by simp [hbusy]⟩⟩
  · exact ⟨_, hstep.trans (hostAct_memRead hl rfl hs ho), rfl, rfl, by simp, ho⟩

theorem step_store {s : State} {addr : Nat} {l : Loc} {v : Word} {rest : List HostAction}
    (ho : s.portOpen = true) (hl : locate s.cfg addr = some l)
    (ha : s.host.actions = .memWrite addr l.width v :: rest) :
    step s = .next ((s.popAction rest).store l v) :=
  (step_of_actions (coreMoves_of_portOpen ho) ha).trans (hostAct_memWrite hl rfl ho)

/-- A location other than CMD written and read back: the read returns what the store left there. -/
theorem step_store_then_read {s : State} {addr : Nat} {l : Loc} {v : Word} {rest : List HostAction}
    (ho : s.portOpen = true) (hl : locate s.cfg addr = some l) (hc : l ≠ .reg .cmd)
    (ha : s.host.actions = .memWrite addr l.width v :: .memRead addr l.width :: rest) :
    ∃ t u, step s = .next t ∧ t = (s.popAction (.memRead addr l.width :: rest)).store l v ∧
      step t = .next u ∧ u = { t with host := u.host } ∧ u.host.actions = rest ∧
      u.host.reads = s.host.reads ++ [t.valueAt l] := by
  obtain ⟨u, hu, hcore, hact, hreads, -⟩ :=
    step_read (s := (s.popAction (.memRead addr l.width :: rest)).store l v) (rest := rest)
      (by rw [store_portOpen hc]; exact ho) (by rw [store_cfg]; exact hl) (by rw [store_host hc]; rfl)
  refine ⟨_, u, step_store ho hl ha, rfl, hu, hcore, hact, ?_⟩
  rw [hreads, store_host hc]
  rfl

/-! ### An access of another shape -/

/-- An access that no location takes is refused, by the name that its offset has (20_memory R41, R45). -/
theorem atLocation_of_not_wellShaped {s : State} {addr n : Nat}
    (h : (locate s.cfg addr).any (·.width == n) = false)
    (act : Loc → Host.Outcome State Fault Refusal) :
    atLocation s addr n act = .refused (if locate s.cfg addr = none ∧ registersEnd ≤ addr
      then .unassignedOffset addr else .noSuchAccess addr n) := by
  unfold atLocation
  cases hl : locate s.cfg addr with
  | none => by_cases ha : addr < registersEnd <;> simp [ha, Nat.not_lt.1]
  | some l =>
    have hn : l.width ≠ n := by simpa [hl] using h
    simp [hn]

/-- A step whose action is such an access. -/
theorem step_of_not_wellShaped {s : State} {a : HostAction} {addr n : Nat} {rest : List HostAction}
    (hm : s.coreMoves = false) (ha : s.host.actions = a :: rest)
    (hacc : a = .memRead addr n ∨ ∃ v, a = .memWrite addr n v) (hw : a.wellShaped s.cfg = false) :
    step s = .refused (if locate s.cfg addr = none ∧ registersEnd ≤ addr
      then .unassignedOffset addr else .noSuchAccess addr n) := by
  rw [step_of_actions hm ha]
  rcases hacc with rfl | ⟨v, rfl⟩
  · exact atLocation_of_not_wellShaped (s := s.popAction rest) hw _
  · exact atLocation_of_not_wellShaped (s := s.popAction rest) hw _

/-! ### What a command's completion does to a byte -/

/-- The completion changes a byte only for the command that stores to it. -/
theorem complete_byte_writer {s t : State} {b : Buf} {k : Nat} (h : complete s = .next t)
    (hne : t.byteAt b k ≠ s.byteAt b k) :
    ∃ i n, s.cmd = encode i ∧ exec i s = .next t ∧ s.stored i = some (b, n) ∧ k < n := by
  rcases complete_cases h with ⟨i, hi, hx⟩ | ⟨-, rfl⟩
  · have hst : ¬∀ n, s.stored i = some (b, n) → n ≤ k := fun hk => hne (exec_byteAt hx hk)
    push Not at hst
    obtain ⟨n, hn, hk⟩ := hst
    exact ⟨i, n, hi, hx, hn, hk⟩
  · exact absurd (byteAt_finish s _ b k) hne

/-! ### A command word issued and waited for -/

/-- The completion neither reads nor writes the host's side. -/
theorem complete_with_host {s t : State} (h : complete s = .next t) (side : HostSide) :
    complete { s with host := side } = .next { t with host := side } := by
  unfold complete at h ⊢
  cases hd : decode s.cmd with
  | ok i =>
    simp only [hd] at h ⊢
    exact exec_host h side
  | error e =>
    simp only [hd] at h ⊢
    rw [← Host.Outcome.next.inj h]
    rfl

theorem hostAct_wait_of_busy {s : State} (h : s.busy = true) :
    hostAct .wait s = .next (s.readStatus.pushActions [.wait]) := by
  simp [hostAct, h]

theorem hostAct_wait_of_idle {s : State} (h : s.busy = false) : hostAct .wait s = .next s.readStatus := by
  simp [hostAct, h]

/-- A WAIT makes as many STATUS reads as the core lets host moves pass; each returns 1, and the core is as it
was (30_encoding R69). -/
theorem run_wait_polls (n : Nat) (rest : List HostAction) (s : State) (hb : s.busy = true)
    (he : s.err = .none) (hd : s.host.delay = n) (ha : s.host.actions = .wait :: rest) :
    ∃ t : State, Sys2Proof.core.run n s = .next t ∧ t = { s with host := t.host } ∧
      t.host.actions = .wait :: rest ∧ t.host.delay = 0 ∧
      t.host.reads = s.host.reads ++ List.replicate n (.word 1) := by
  induction n generalizing s with
  | zero => exact ⟨s, rfl, rfl, ha, hd, by simp⟩
  | succ n ih =>
    have hm : s.coreMoves = false := by simp [State.coreMoves, hd, ha]
    have hstep := (step_of_actions hm ha).trans (hostAct_wait_of_busy hb)
    obtain ⟨t, ht, hcore, hact, hdelay, hreads⟩ :=
      ih ((s.popAction rest).readStatus.pushActions [.wait]) (by simp [hb]) (by simp [he])
        (by simp [hd]) (by simp)
    refine ⟨t, (run_succ n hstep).trans ht, hcore.trans (by simp), hact, hdelay, ?_⟩
    rw [hreads]
    simp [status_of_busy (s := s.popAction rest) hb he, List.replicate_succ]

/-- A word written to CMD and waited for is the completion of that word: the polls before it and the STATUS
after it are recorded, and the window is closed again (30_encoding R69, R70). -/
theorem run_issue_wait {s t : State} {v : Word} {rest : List HostAction} (ho : s.portOpen = true)
    (ha : s.host.actions = .memWrite 0x000 4 v :: .wait :: rest) (hc : complete (s.latch v) = .next t) :
    ∃ side : HostSide,
      Sys2Proof.core.run (Config.completionDelay s.host.issues + 3) s =
        Host.Outcome.next (σ := State) { t with host := side } ∧
      side.actions = rest ∧ side.window = false ∧
      side.reads = s.host.reads ++ List.replicate (Config.completionDelay s.host.issues) (.word 1) ++
        [.word t.status] := by
  have hissue : step s = .next ((s.popAction (.wait :: rest)).issue v) :=
    step_store ho (locate_reg s.cfg .cmd) ha
  obtain ⟨u, hu, hcore, hact, hdelay, hreads⟩ :=
    run_wait_polls _ rest ((s.popAction (.wait :: rest)).issue v) rfl rfl rfl rfl
  have hmoves : u.coreMoves = true := by
    rw [State.coreMoves, hdelay, hcore]
    rfl
  have hcomplete : step u = .next { t with host := u.host } := by
    rw [step_of_coreMoves hmoves, hcore]
    exact complete_with_host hc u.host
  have hidle : t.busy = false := complete_busy hc
  have hwait : step { t with host := u.host } =
      .next (({ t with host := u.host } : State).popAction rest).readStatus :=
    (step_of_actions (s := { t with host := u.host }) (coreMoves_of_idle hidle) hact).trans
      (hostAct_wait_of_idle hidle)
  refine ⟨(({ t with host := u.host } : State).popAction rest).readStatus.host, ?_, rfl, ?_, ?_⟩
  · calc Sys2Proof.core.run (Config.completionDelay s.host.issues + 3) s
      _ = Sys2Proof.core.run (Config.completionDelay s.host.issues + 2)
            ((s.popAction (.wait :: rest)).issue v) := run_succ _ hissue
      _ = Sys2Proof.core.run 2 u := coreRun_add 2 hu
      _ = Sys2Proof.core.run 1 { t with host := u.host } := run_succ 1 hcomplete
      _ = _ := run_succ 0 hwait
  · simp [hidle]
  · exact congrArg (· ++ [PortValue.word t.status]) hreads

/-! ### The obligations -/

/-- Settles O23: the store to the register, and the read of what it left there. -/
theorem registerWriteThenRead : Obligations.RegisterWriteThenRead := by
  intro s r v rest ho hr ha
  have hc : Loc.reg r ≠ .reg .cmd := by simpa using hr
  obtain ⟨t, u, ht, rfl, hu, hcore, hact, hreads⟩ :=
    step_store_then_read (l := .reg r) ho (locate_reg s.cfg r) hc ha
  refine ⟨_, u, ht, hu, hcore, hact, ?_, fun r' hne => ?_, fun b k => ?_⟩
  · rw [hreads]
    cases r with
    | cmd => exact absurd rfl hr
    | offset => rw [← setWidth_four_setWidth]; rfl
    | _ => rfl
  · exact (readReg_writeReg_ne hr hne _ v).trans (popAction_readReg s _ r')
  · exact (byteAt_writeReg _ r v b k).trans (popAction_byteAt s _ b k)

/-- Settles O24: the store to the byte, and the read of what it left there. -/
theorem byteWriteThenRead : Obligations.ByteWriteThenRead := by
  intro s b k v rest hs ho hk ha
  obtain ⟨t, u, ht, rfl, hu, hcore, hact, hreads⟩ :=
    step_store_then_read (l := .byte b k) ho (locate_byte hs.1 b hk) (by simp) ha
  have hs' : (s.popAction (.memRead (b.base s.cfg + k) 1 :: rest)).sound := hs
  refine ⟨_, u, ht, hu, hcore, hact, ?_, fun r => ?_, fun b' k' hne => ?_⟩
  · rw [hreads, State.valueAt]
    exact congrArg (s.host.reads ++ [.byte ·]) (byteAt_store_same hs' b k v)
  · exact (State.setBuffer_readReg _ b _ r).trans (popAction_readReg s _ r)
  · have hl : Loc.byte b k ≠ .byte b' k' := by
      rintro ⟨⟩
      simp at hne
    exact (byteAt_store_ne hs' hl v).trans (popAction_byteAt s _ b' k')

/-- Settles O25: the default parameters are legal, and every other offset is one of no location. -/
theorem defaultMapIsTheTable : Obligations.DefaultMapIsTheTable := by
  refine ⟨locate_reg _, fun k hk => locate_byte default_legal .digest hk,
    fun k hk => locate_byte default_legal .keymem hk, fun k hk => locate_byte default_legal .msgmem hk,
    fun k hk => locate_byte default_legal .txtmem hk, fun addr h => ?_⟩
  refine locate_eq_none_of_no_byte (by omega) fun b k hk => ?_
  cases b <;> simp only [Buf.cap, Buf.base, Config.default, Config.txtCap] at hk ⊢ <;> omega

/-- Settles O26: the offset of a location is that location's alone, and leads back to it. -/
theorem locationsAndOffsetsCorrespond : Obligations.LocationsAndOffsetsCorrespond := by
  refine fun c hc => ⟨fun l hl => ?_, fun addr l => of_locate⟩
  cases l with
  | reg r => exact locate_reg c r
  | byte b k => exact locate_byte hc b (by simpa [Loc.exists] using hl)

/-- Settles O27: an access that no location takes is refused, and the map says by which name. -/
theorem accessesOfAnotherShapeStop : Obligations.AccessesOfAnotherShapeStop := by
  intro s a addr n rest hc hm ha hacc hw
  rw [step_of_not_wellShaped hm ha hacc hw]
  refine ⟨fun hlow hno => ?_, fun h => ?_⟩
  · rw [if_pos ⟨locate_eq_none_of_no_byte hlow hno, hlow⟩]
  · refine congrArg _ (if_neg ?_)
    rintro ⟨hnone, hlow⟩
    rcases h with h | ⟨b, k, hk, rfl⟩
    · exact absurd hlow (Nat.not_le.2 h)
    · simp [locate_byte hc b hk] at hnone

/-- Settles O34: of the things a step can do, only the stores of a command, the host's store to the byte and
the reset change a byte. -/
theorem bytesChangeOnlyByTheirWriters : Obligations.BytesChangeOnlyByTheirWriters := by
  intro s t b k hs h hne
  rcases step_core_cases h with ⟨hb, hc⟩ | hh | ⟨l, v, rest, ha, ho, rfl⟩ | ⟨rest, ha, rfl⟩
  · obtain ⟨i, n, hi, hx, hst, hk⟩ := complete_byte_writer hc hne
    exact .inl ⟨i, n, hb, hi, hx, hst, hk⟩
  · exact absurd (byteAt_of_hostOnly hh b k) hne
  · have hs' : (s.popAction rest).sound := hs
    obtain rfl : l = .byte b k := by
      by_contra hl
      exact hne ((byteAt_store_ne hs' hl v).trans (popAction_byteAt s rest b k))
    exact .inr (.inl ⟨v, rest, ha, ho, byteAt_store_same hs' b k v⟩)
  · exact .inr (.inr ⟨rest, ha, byteAt_cleared _ _ b k⟩)

/-- Settles O57: a read records the register's value, and after the WAIT CMD holds the word written. -/
theorem registerReadsReturnTheirValues : Obligations.RegisterReadsReturnTheirValues := by
  refine ⟨fun s r rest ho ha => ?_, fun s v rest ho ha => ?_⟩
  · obtain ⟨t, ht, hcore, hact, hreads, hopen⟩ := step_read (l := .reg r) ho (locate_reg s.cfg r) ha
    refine ⟨t, s.readReg r, ht, hcore, hact, hreads, hopen, ?_⟩
    cases r with
    | status => exact toNat_status_of_idle (portOpen_iff.1 ho).1
    | offset => exact BitVec.toNat_setWidth_of_le (by decide)
    | trunc => exact BitVec.toNat_setWidth_of_le (by decide)
    | _ => rfl
  · obtain ⟨t, hc⟩ := complete_next (s.latch v)
    obtain ⟨-, hcmd, -⟩ := complete_host hc
    obtain ⟨side, hrun, hact, hwindow, hreads⟩ := run_issue_wait ho ha hc
    have hidle : t.busy = false := complete_busy hc
    obtain ⟨u, hu, hcore, hact', hreads', hopen⟩ :=
      step_read (s := { t with host := side }) (l := .reg .cmd) (portOpen_iff.2 ⟨hidle, hwindow⟩)
        (locate_reg _ .cmd) hact
    refine ⟨u, t.status, (coreRun_add 1 hrun).trans (run_succ 0 hu), hact', hopen, ?_, ?_, ?_⟩
    · rw [hcore]
      exact hcmd
    · rw [(status_fields t).1, hidle]
    · rw [hreads', hreads, List.append_assoc]
      exact congrArg (_ ++ [PortValue.word t.status, PortValue.word ·]) hcmd

end Sys2Proof.Machine
end

section
/-! PROOFS. The family of 30_encoding: the decoder (O1, O2, O3), the completion (O4, O5), the issue and RUN
(O19, O36), and what the loads and the reads of the host's notation do (O37, O58). -/

namespace Sys2Proof

/-! ### Which words are commands -/

/-- The words of the six commands are the numbers 1 to 6 (30_encoding R62). -/
theorem exists_eq_encode_iff (w : Word) : (∃ i, w = encode i) ↔ 1 ≤ w.toNat ∧ w.toNat ≤ 6 := by
  constructor
  · rintro ⟨i, rfl⟩
    cases i <;> decide
  · rintro ⟨hlow, hhigh⟩
    interval_cases h : w.toNat
    · exact ⟨.ctrser, BitVec.eq_of_toNat_eq h⟩
    · exact ⟨.hmac, BitVec.eq_of_toNat_eq h⟩
    · exact ⟨.doff, BitVec.eq_of_toNat_eq h⟩
    · exact ⟨.trunc, BitVec.eq_of_toNat_eq h⟩
    · exact ⟨.b32dec, BitVec.eq_of_toNat_eq h⟩
    · exact ⟨.b32enc, BitVec.eq_of_toNat_eq h⟩

theorem decode_eq_ok_iff (w : Word) (i : Instr) : decode w = .ok i ↔ w = encode i :=
  ⟨eq_encode_of_decode, fun h => h ▸ decode_encode i⟩

theorem exists_decode_eq_ok_iff (w : Word) : (∃ i, decode w = .ok i) ↔ 1 ≤ w.toNat ∧ w.toNat ≤ 6 := by
  simp only [decode_eq_ok_iff, exists_eq_encode_iff]

/-! ### The two checks on a word -/

theorem reservedZero_iff (w : Word) : reservedZero w = true ↔ w.toNat < 0x100 := by
  have hw := w.isLt
  have hv : (w.extractLsb' 8 24).toNat = w.toNat / 2 ^ 8 % 2 ^ 24 := by
    rw [BitVec.extractLsb'_toNat, Nat.shiftRight_eq_div_pow]
  rw [reservedZero, beq_iff_eq, ← BitVec.toNat_inj, hv]
  simp only [BitVec.ofNat_eq_ofNat, BitVec.toNat_ofNat]
  omega

theorem opcodeAssigned_iff (w : Word) :
    opcodeAssigned w = true ↔ 1 ≤ w.toNat % 0x100 ∧ w.toNat % 0x100 ≤ 6 := by
  simp [opcodeAssigned, BitVec.le_def, BitVec.extractLsb'_toNat]

theorem wordWellFormed_iff (w : Word) : wordWellFormed w = true ↔ 1 ≤ w.toNat ∧ w.toNat ≤ 6 := by
  rw [wordWellFormed, Bool.and_eq_true, reservedZero_iff, opcodeAssigned_iff]
  omega

/-! ### Why a word is no command -/

/-- The name under which a word is rejected depends on RSV alone (30_encoding R65). -/
theorem kind_of_decode_error {w : Word} {e : Reject} (h : decode w = .error e) :
    e = if reservedZero w then .unassignedOpcode else .reservedBits := by
  unfold decode at h
  split at h
  · simp at h
  · exact (Except.error.inj h).symm

theorem decode_eq_error_iff (w : Word) (e : Reject) :
    decode w = .error e ↔
      ¬(1 ≤ w.toNat ∧ w.toNat ≤ 6) ∧ (e = .unassignedOpcode ↔ w.toNat < 0x100) := by
  rw [← exists_decode_eq_ok_iff, ← reservedZero_iff]
  cases h : decode w with
  | ok i => simp
  | error e' =>
    rw [kind_of_decode_error h]
    cases reservedZero w <;> cases e <;> simp

end Sys2Proof

namespace Sys2Proof.Machine

/-! ### A completion that is due -/

/-- The core moves when a command is in flight and its delay has run out or the host has no action left. -/
theorem coreMoves_of_due {s : State} (hb : s.busy = true) (hd : s.host.delay = 0 ∨ s.host.actions = []) :
    s.coreMoves = true := by
  simpa [State.coreMoves, hb] using hd

theorem step_of_due_command {s : State} {i : Instr} (hb : s.busy = true)
    (hd : s.host.delay = 0 ∨ s.host.actions = []) (hi : s.cmd = encode i) : step s = exec i s :=
  (step_of_coreMoves (coreMoves_of_due hb hd)).trans (complete_of_cmd hi)

/-! ### The loads -/

theorem load_eq_some {c : Config} {b : Buf} {len : Reg} {bytes : List Byte} {acts : List HostAction}
    (h : HostAction.load c b len bytes = some acts) :
    bytes.length ≤ b.cap c ∧
      acts = HostAction.wrbs c b 0 bytes ++ [HostAction.wr len (BitVec.ofNat 32 bytes.length)] := by
  unfold HostAction.load at h
  split_ifs at h with hl
  exact ⟨hl, (Option.some.inj h).symm⟩

theorem ldDig_eq_some {c : Config} {bytes : List Byte} {acts : List HostAction}
    (h : HostAction.ldDig c bytes = some acts) :
    bytes.length = 20 ∧ acts = HostAction.wrbs c .digest 0 bytes := by
  unfold HostAction.ldDig at h
  split_ifs at h with hl
  exact ⟨hl, (Option.some.inj h).symm⟩

/-- Every capacity is a number of 32 bits, so a length register can hold it (00_scope R3). -/
theorem cap_lt_of_legal {c : Config} (h : c.legal = true) (b : Buf) : b.cap c < 2 ^ 32 := by
  obtain ⟨-, -, -, hkey, hmsg, htxt⟩ := sizesLegal_of_legal h
  cases b with
  | digest => simp [Buf.cap]
  | keymem => exact hkey
  | msgmem => exact hmsg
  | txtmem => exact htxt

/-- The core after a load: the bytes in the buffer, and their number in the length register. -/
def State.loaded (s : State) (b : Buf) (len : Reg) (bytes : List Byte) : State :=
  (s.setBuffer b (Memory.writeBytes (s.buffer b) 0 bytes)).writeReg len (BitVec.ofNat 32 bytes.length)

/-- No register is part of a buffer. -/
@[simp] theorem buffer_writeReg (s : State) (r : Reg) (v : Word) (b : Buf) :
    (s.writeReg r v).buffer b = s.buffer b := by
  cases r <;> cases b <;> rfl

@[simp] theorem buffer_loaded (s : State) (b : Buf) (len : Reg) (bytes : List Byte) :
    (s.loaded b len bytes).buffer b = Memory.writeBytes (s.buffer b) 0 bytes := by
  simp [State.loaded]

/-- A length register holds what is written to it (20_memory R43). -/
theorem readReg_writeReg_length {len : Reg} (h : len = .keyLen ∨ len = .msgLen ∨ len = .txtLen) (s : State)
    (v : Word) : (s.writeReg len v).readReg len = v := by
  rcases h with rfl | rfl | rfl <;> rfl

theorem buffer_of_hostOnly {s t : State} (h : hostOnly s t) (b : Buf) : t.buffer b = s.buffer b := by
  rw [h]
  cases b <;> rfl

/-- A store to a length register does not depend on the host's side. -/
theorem hostOnly_writeReg_length {len : Reg} (h : len = .keyLen ∨ len = .msgLen ∨ len = .txtLen)
    {s t : State} (ht : hostOnly s t) (v : Word) : hostOnly (s.writeReg len v) (t.writeReg len v) := by
  rw [ht]
  rcases h with rfl | rfl | rfl <;> rfl

/-- The steps of a load: all of its bytes, one after another, and then the length (30_encoding R69). -/
theorem run_load_steps {s : State} {b : Buf} {len : Reg} {bytes : List Byte} {acts rest : List HostAction}
    (hs : s.sound) (ho : s.portOpen = true) (ha : s.host.actions = acts ++ rest)
    (hlen : len = .keyLen ∨ len = .msgLen ∨ len = .txtLen)
    (hload : HostAction.load s.cfg b len bytes = some acts) :
    ∃ t : State, Sys2Proof.core.run (bytes.length + 1) s = .next t ∧ hostOnly (s.loaded b len bytes) t ∧
      t.host.actions = rest ∧ t.host.reads = s.host.reads ∧ t.portOpen = true := by
  obtain ⟨hfit, rfl⟩ := load_eq_some hload
  have hcmd : Loc.reg len ≠ .reg .cmd := by rcases hlen with rfl | rfl | rfl <;> simp
  obtain ⟨u, hu, hcore, hact, hreads, hopen⟩ :=
    run_wrbs b bytes 0 (HostAction.wr len (BitVec.ofNat 32 bytes.length) :: rest) s hs ho (by omega)
      (by simpa using ha)
  have hstep := step_store hopen (locate_reg u.cfg len) hact
  have hhost := store_host hcmd (u.popAction rest) (BitVec.ofNat 32 bytes.length)
  refine ⟨_, (coreRun_add 1 hu).trans (run_succ 0 hstep), ?_, ?_, ?_, ?_⟩
  · exact hostOnly_writeReg_length hlen (t := u.popAction rest) (by rw [hcore]; rfl) _
  · rw [hhost]
    rfl
  · rw [hhost]
    exact hreads
  · rw [store_portOpen hcmd]
    exact hopen

/-- The load of a byte sequence: its bytes stand in the buffer, the bytes above them are as before, and its
length stands in the register (30_encoding R69). -/
theorem run_load {s : State} {b : Buf} {len : Reg} {bytes : List Byte} {acts rest : List HostAction}
    (hs : s.sound) (ho : s.portOpen = true) (ha : s.host.actions = acts ++ rest)
    (hlen : len = .keyLen ∨ len = .msgLen ∨ len = .txtLen)
    (hload : HostAction.load s.cfg b len bytes = some acts) :
    ∃ t : State, Sys2Proof.core.run (bytes.length + 1) s = .next t ∧
      Memory.readBytes (t.buffer b) 0 bytes.length = bytes ∧
      (∀ k, bytes.length ≤ k → Memory.read (t.buffer b) k = Memory.read (s.buffer b) k) ∧
      (t.readReg len).toNat = bytes.length ∧ hostOnly (s.loaded b len bytes) t ∧
      t.host.actions = rest ∧ t.host.reads = s.host.reads ∧ t.portOpen = true := by
  obtain ⟨t, hrun, hcore, hhost⟩ := run_load_steps hs ho ha hlen hload
  obtain ⟨hlegal, hwf⟩ := (sound_iff s).1 hs
  have hfit := (load_eq_some hload).1
  have hcap := cap_lt_of_legal hlegal b
  have hbuf := (buffer_of_hostOnly hcore b).trans (buffer_loaded s b len bytes)
  refine ⟨t, hrun, ?_, fun k hk => ?_, ?_, hcore, hhost⟩
  · rw [hbuf, Memory.readBytes_writeBytes (hwf b) hfit]
  · rw [hbuf, Memory.read_writeBytes_outside (.inr (by omega))]
  · rw [readReg_of_hostOnly hcore, State.loaded, readReg_writeReg_length hlen, BitVec.toNat_ofNat]
    exact Nat.mod_eq_of_lt (by omega)

/-- The load of a digest: its 20 bytes, one step each (30_encoding R69). -/
theorem run_ldDig {s : State} {bytes : List Byte} {acts rest : List HostAction} (hs : s.sound)
    (ho : s.portOpen = true) (ha : s.host.actions = acts ++ rest)
    (hload : HostAction.ldDig s.cfg bytes = some acts) :
    ∃ t : State, Sys2Proof.core.run 20 s = .next t ∧ Memory.readBytes t.digest 0 20 = bytes ∧
      t = { s with digest := t.digest, host := t.host } ∧
      t.host.actions = rest ∧ t.host.reads = s.host.reads ∧ t.portOpen = true := by
  obtain ⟨hlen, rfl⟩ := ldDig_eq_some hload
  obtain ⟨t, hrun, hcore, hhost⟩ := run_wrbs .digest bytes 0 rest s hs ho (by simp [hlen, Buf.cap]) ha
  rw [hlen] at hrun
  refine ⟨t, hrun, ?_, by rw [hcore]; rfl, hhost⟩
  rw [hcore, ← hlen]
  exact Memory.readBytes_writeBytes (((sound_iff s).1 hs).2 .digest) hlen.le

/-- The two halves of a counter (30_encoding R69). -/
theorem toNat_halves (v : BitVec 64) :
    (v.extractLsb' 32 32).toNat = v.toNat / 2 ^ 32 ∧ (v.extractLsb' 0 32).toNat = v.toNat % 2 ^ 32 := by
  have hv := v.isLt
  rw [BitVec.extractLsb'_toNat, BitVec.extractLsb'_toNat, Nat.shiftRight_eq_div_pow, Nat.shiftRight_zero]
  exact ⟨Nat.mod_eq_of_lt (by omega), rfl⟩

/-- The load of a counter: its two halves, one step each (30_encoding R69). -/
theorem run_ldCtr {s : State} {v : BitVec 64} {rest : List HostAction} (ho : s.portOpen = true)
    (ha : s.host.actions = HostAction.ldCtr v ++ rest) :
    ∃ t : State, Sys2Proof.core.run 2 s = .next t ∧
      t = { s with ctrHi := v.extractLsb' 32 32, ctrLo := v.extractLsb' 0 32, host := t.host } ∧
      t.host.actions = rest ∧ t.host.reads = s.host.reads ∧ t.portOpen = true := by
  have hhigh : step s = .next ((s.popAction (.wr .ctrLo (v.extractLsb' 0 32) :: rest)).store (.reg .ctrHi)
      (v.extractLsb' 32 32)) := step_store ho (locate_reg s.cfg .ctrHi) ha
  refine ⟨_, (run_succ 1 hhigh).trans (run_succ 0 (step_store ?_ (locate_reg s.cfg .ctrLo) rfl)), rfl, rfl,
    rfl, ?_⟩ <;> exact ho

/-! ### The reads of RDTXT and RDKEY -/

/-- RDTXT and RDKEY read the length register and then bytes of the buffer, as many as the register says and
as the buffer has (30_encoding R69, 20_memory R45). -/
theorem run_readCounted {a : HostAction} {r : Reg} {b : Buf} (hr : ∀ s, hostAct a s = readCounted s r b)
    {s : State} {rest : List HostAction} {m : Nat} (ho : s.portOpen = true)
    (ha : s.host.actions = a :: rest) (hm : m ≤ (s.readReg r).toNat) (hcap : m ≤ b.cap s.cfg) :
    ∃ t : State, Sys2Proof.core.run (m + 1) s = .next t ∧ t = { s with host := t.host } ∧
      t.host.actions = HostAction.bytesFrom b m ((s.readReg r).toNat - m) ++ rest ∧ t.portOpen = true ∧
      t.host.reads = s.host.reads ++
        .word (s.readReg r) :: (Memory.readBytes (s.buffer b) 0 m).map PortValue.byte := by
  have hstep := (step_of_actions (coreMoves_of_portOpen ho) ha).trans (hr (s.popAction rest))
  rw [readCounted, if_pos ((popAction_portOpen s rest).trans ho)] at hstep
  obtain ⟨t, hrun, hcore, hact, hopen, hreads⟩ := run_bytesFrom b m (s.readReg r).toNat 0 rest
    (((s.popAction rest).record (.word (s.readReg r))).pushActions
      (HostAction.bytesFrom b 0 (s.readReg r).toNat))
    ho (by simpa using hcap) hm rfl
  refine ⟨t, ?_, hcore, by simpa using hact, hopen, ?_⟩
  · rw [run_succ m hstep, popAction_readReg, hrun]
  · rw [hreads]
    cases b <;> simp

/-- RDTXT and RDKEY with a length that the buffer has: all of its bytes are read. -/
theorem run_readCounted_of_le_cap {a : HostAction} {r : Reg} {b : Buf}
    (hr : ∀ s, hostAct a s = readCounted s r b) {s : State} {rest : List HostAction}
    (ho : s.portOpen = true) (ha : s.host.actions = a :: rest) (hcap : (s.readReg r).toNat ≤ b.cap s.cfg) :
    ∃ t : State, Sys2Proof.core.run ((s.readReg r).toNat + 1) s = .next t ∧ t = { s with host := t.host } ∧
      t.host.actions = rest ∧ t.portOpen = true ∧
      t.host.reads = s.host.reads ++ .word (s.readReg r) ::
        (Memory.readBytes (s.buffer b) 0 (s.readReg r).toNat).map PortValue.byte := by
  obtain ⟨t, hrun, hcore, hact, hhost⟩ := run_readCounted hr ho ha le_rfl hcap
  refine ⟨t, hrun, hcore, ?_, hhost⟩
  rw [hact, Nat.sub_self]
  rfl

/-- RDTXT and RDKEY with a length above the capacity: every byte there is is read, and the first byte there
is not is refused (20_memory R45). -/
theorem run_readCounted_of_cap_lt {a : HostAction} {r : Reg} {b : Buf}
    (hr : ∀ s, hostAct a s = readCounted s r b) {s : State} {rest : List HostAction}
    (ho : s.portOpen = true) (ha : s.host.actions = a :: rest) (hcap : b.cap s.cfg < (s.readReg r).toNat) :
    ∃ t : State, Sys2Proof.core.run (b.cap s.cfg + 1) s = .next t ∧ t = { s with host := t.host } ∧
      t.host.reads = s.host.reads ++
        .word (s.readReg r) :: (Memory.readBytes (s.buffer b) 0 (b.cap s.cfg)).map PortValue.byte ∧
      step t = .refused (.noSuchByte b (b.cap s.cfg)) := by
  obtain ⟨t, hrun, hcore, hact, hopen, hreads⟩ := run_readCounted hr ho ha hcap.le le_rfl
  refine ⟨t, hrun, hcore, hreads, ?_⟩
  obtain ⟨more, hmore⟩ : ∃ more, (s.readReg r).toNat - b.cap s.cfg = more + 1 :=
    Nat.exists_eq_add_one.2 (by omega)
  rw [hmore] at hact
  rw [step_of_actions (coreMoves_of_portOpen hopen) hact]
  exact hostAct_readBytes_missing (by rw [hcore]; rfl)

/-! ### The obligations -/

/-- Settles O2: the six words by computation; every row of the opcode map has all 32 bits in its mask. -/
theorem wordSelectsCommandOnlyWhenAllBitsMatch : Obligations.WordSelectsCommandOnlyWhenAllBitsMatch :=
  ⟨⟨rfl, rfl, rfl, rfl, rfl, rfl⟩, decode_eq_ok_iff⟩

/-- Settles O3: the words rejected are those above 6 and 0, and RSV alone tells the two kinds apart. -/
theorem illegalWordsAreRejectedByKind : Obligations.IllegalWordsAreRejectedByKind := by
  intro w
  refine ⟨?_, ?_, by rw [exists_decode_eq_ok_iff, wordWellFormed_iff]⟩
  · rw [decode_eq_error_iff]
    simp only [reduceCtorEq, false_iff]
    omega
  · rw [decode_eq_error_iff]
    simp only [true_iff]
    omega

/-- Settles O5: the core moves, its completion has a next state for every word, and leaves it idle. -/
theorem everyIssuedWordCompletes : Obligations.EveryIssuedWordCompletes := by
  intro s hb hd
  obtain ⟨t, ht⟩ := complete_next s
  obtain ⟨hhost, hcmd, hcfg⟩ := complete_host ht
  exact ⟨t, (step_of_coreMoves (coreMoves_of_due hb hd)).trans ht, complete_busy ht, hcmd, hcfg, hhost⟩

/-- Settles O36: the word of the command, issued and waited for, completes as `runCommand` does, whatever the
delay is. -/
theorem runIsOneAtomicAction : Obligations.RunIsOneAtomicAction := by
  intro s i rest ho ha
  obtain ⟨t, hx, hrun⟩ := runCommand_of_open i ho
  have hc : complete (s.latch (encode i)) = .next t := (complete_of_cmd (State.latch_cmd s _)).trans hx
  obtain ⟨side, hsteps, hact, hwindow, hreads⟩ := run_issue_wait ho ha hc
  have hidle : t.busy = false := complete_busy hc
  exact ⟨t, _, hrun, hsteps, rfl, hact, portOpen_iff.2 ⟨hidle, hwindow⟩, hreads⟩

/-- Settles O37: the three loads with a length are one, and LDDIG and LDCTR are the writes without it. -/
theorem loadKeyActionsLoadTheKey : Obligations.LoadKeyActionsLoadTheKey := by
  intro s bytes v acts rest hs ho ha
  refine ⟨fun h => ?_, fun h => ?_, fun h => ?_, fun h => ?_, fun h => ?_⟩
  · obtain ⟨t, hrun, hbytes, habove, hlen, hcore, hact, hreads, hopen⟩ := run_load hs ho ha (by simp) h
    refine ⟨t, hrun, hbytes, habove, hlen, by rw [hcore]; rfl, hact, hreads, hopen, ?_⟩
    rw [State.loadKey, if_pos ⟨ho, (load_eq_some h).1⟩, hcore]
    rfl
  · obtain ⟨t, hrun, hbytes, habove, hlen, hcore, hhost⟩ := run_load hs ho ha (by simp) h
    exact ⟨t, hrun, hbytes, habove, hlen, by rw [hcore]; rfl, hhost⟩
  · obtain ⟨t, hrun, hbytes, habove, hlen, hcore, hact, hreads, hopen⟩ := run_load hs ho ha (by simp) h
    refine ⟨t, hrun, hbytes, habove, hlen, by rw [hcore]; rfl, hact, hreads, hopen, ?_⟩
    rw [State.loadTxt, if_pos ⟨ho, (load_eq_some h).1⟩, hcore]
    rfl
  · exact run_ldDig hs ho ha h
  · subst h
    obtain ⟨t, hrun, hcore, hact, hreads, hopen⟩ := run_ldCtr ho ha
    obtain ⟨hhigh, hlow⟩ := toNat_halves v
    refine ⟨t, hrun, by rw [hcore]; exact hhigh, by rw [hcore]; exact hlow, by rw [hcore], hact, hreads,
      hopen, ?_⟩
    rw [State.loadCtr, if_pos ho, hcore]

/-- Settles O58: the reads of RDDIG one by one, and those of RDTXT and RDKEY as far as the buffer goes. -/
theorem readActionsRecordTheBytes : Obligations.ReadActionsRecordTheBytes := by
  refine fun s rest hs ho => ⟨fun ha => ?_, fun ha => ⟨?_, ?_⟩, fun ha => ⟨?_, ?_⟩⟩
  · obtain ⟨t, hrun, hcore, hact, hopen, hreads⟩ :=
      run_rdbs .digest (List.range 20) rest s hs.1 ho (fun k hk => List.mem_range.1 hk) ha
    refine ⟨t, hrun, hcore, hact, hopen, ?_⟩
    rw [hreads]
    simp [Memory.readBytes, State.byteAt]
  · exact run_readCounted_of_le_cap (r := .txtLen) (b := .txtmem) (fun _ => rfl) ho ha
  · exact run_readCounted_of_cap_lt (r := .txtLen) (b := .txtmem) (fun _ => rfl) ho ha
  · exact run_readCounted_of_le_cap (r := .keyLen) (b := .keymem) (fun _ => rfl) ho ha
  · exact run_readCounted_of_cap_lt (r := .keyLen) (b := .keymem) (fun _ => rfl) ho ha

/-- Settles O1: each command's word decodes to it, and no row of the map selects the six others. -/
theorem eachSpecWordDecodesToItsCommand : Obligations.EachSpecWordDecodesToItsCommand :=
  ⟨⟨decode_encode .ctrser, decode_encode .hmac, decode_encode .doff, decode_encode .trunc,
    decode_encode .b32dec, decode_encode .b32enc⟩, rfl, rfl, rfl, rfl, rfl, rfl⟩

/-- Settles O4: the core moves, and its completion is the command whose word CMD holds. -/
theorem stepRunsTheDecodedCommand : Obligations.StepRunsTheDecodedCommand := by
  refine ⟨fun s i hb hd hi => step_of_due_command hb hd (eq_encode_of_decode hi), fun s i n => ?_⟩
  exact step_of_due_command rfl (.inl rfl) (by simp [State.withFetchWord, State.withIssued])

/-- Settles O19: the store to CMD, which is the issue. -/
theorem writeToCmdIssuesACommand : Obligations.WriteToCmdIssuesACommand := by
  intro s v rest ho ha
  exact ⟨_, step_store ho (locate_reg s.cfg .cmd) ha, rfl, rfl, rfl, rfl⟩

end Sys2Proof.Machine
end

section
/-! PROOFS. The family of 40_base32: the alphabet (O38) and the group (O39), what B32DEC and B32ENC store
(O12, O13), and the two round trips of RUN (O40, O41). -/

namespace Sys2Proof.Machine

/-- The bytes without a value are those outside the two ranges of the alphabet (40_base32 R80). -/
theorem b32val_eq_none_iff (c : Byte) :
    b32val c = none ↔ ¬(0x41 ≤ c.toNat ∧ c.toNat ≤ 0x5A) ∧ ¬(0x32 ≤ c.toNat ∧ c.toNat ≤ 0x37) := by
  unfold b32val
  split_ifs with hletter hdigit
  · simp [hletter]
  · simp [hdigit]
  · simp [hletter, hdigit]

/-! ### The number of a group -/

/-- The sum that R81 writes for a group, of any number of values. -/
theorem groupValue_ofFn {n : Nat} (v : Fin n → BitVec 5) :
    groupValue (List.ofFn v) = ∑ j : Fin n, (v j).toNat * 2 ^ (5 * (n - 1 - (j : Nat))) := by
  induction n with
  | zero => simp [groupValue]
  | succ n ih =>
    rw [List.ofFn_succ, groupValue, ih, List.length_ofFn, Fin.sum_univ_succ]
    congr 1
    refine Finset.sum_congr rfl fun j _ => ?_
    rw [Fin.val_succ, show n + 1 - 1 - ((j : Nat) + 1) = n - 1 - j by omega]

theorem decodeGroup_ofFn (v : Fin 8 → BitVec 5) :
    decodeGroup (List.ofFn v) = toBe (∑ j : Fin 8, (v j).toNat * 2 ^ (35 - 5 * (j : Nat))) 5 := by
  rw [decodeGroup, groupValue_ofFn]
  refine congrArg (toBe · 5) (Finset.sum_congr rfl fun j _ => ?_)
  rw [show 5 * (8 - 1 - (j : Nat)) = 35 - 5 * j by omega]

/-- Group g of a sequence of values, by its eight indexes. -/
theorem take_drop_eq_ofFn {vs : List (BitVec 5)} {g : Nat} (h : 8 * g + 8 ≤ vs.length) :
    (vs.drop (8 * g)).take 8 = List.ofFn fun j : Fin 8 => vs[8 * g + (j : Nat)] := by
  refine List.ext_getElem (by simp; omega) fun j h₁ h₂ => ?_
  rw [List.getElem_take, List.getElem_drop, List.getElem_ofFn]

/-- The five bytes of group g of a decoded text. -/
theorem take_drop_decodeGroups {n g : Nat} {vs : List (BitVec 5)} (hg : g < n) :
    ((decodeGroups n vs).drop (5 * g)).take 5 = decodeGroup ((vs.drop (8 * g)).take 8) := by
  refine List.ext_getElem (by simp; omega) fun i h₁ h₂ => ?_
  rw [length_decodeGroup] at h₂
  rw [List.getElem_take, List.getElem_drop, getElem_decodeGroups hg h₂]

/-- The five bytes of a number, as numbers. -/
theorem map_toNat_toBe_five (v : Nat) :
    (toBe v 5).map BitVec.toNat =
      [v / 2 ^ 32 % 256, v / 2 ^ 24 % 256, v / 2 ^ 16 % 256, v / 2 ^ 8 % 256, v % 256] := by
  simp [toBe, List.range_succ, Nat.shiftRight_eq_div_pow]

/-- The bytes of a group of eight values, spelled out as R81 does. -/
theorem toNat_decodeGroup (v₀ v₁ v₂ v₃ v₄ v₅ v₆ v₇ : BitVec 5) :
    (decodeGroup [v₀, v₁, v₂, v₃, v₄, v₅, v₆, v₇]).map BitVec.toNat =
      [v₀.toNat * 8 + v₁.toNat / 4, v₁.toNat % 4 * 64 + v₂.toNat * 2 + v₃.toNat / 16,
        v₃.toNat % 16 * 16 + v₄.toNat / 2, v₄.toNat % 2 * 128 + v₅.toNat * 4 + v₆.toNat / 8,
        v₆.toNat % 8 * 32 + v₇.toNat] := by
  have h₀ := v₀.isLt
  have h₁ := v₁.isLt
  have h₂ := v₂.isLt
  have h₃ := v₃.isLt
  have h₄ := v₄.isLt
  have h₅ := v₅.isLt
  have h₆ := v₆.isLt
  have h₇ := v₇.isLt
  have hvalue : groupValue [v₀, v₁, v₂, v₃, v₄, v₅, v₆, v₇] =
      v₀.toNat * 2 ^ 35 + v₁.toNat * 2 ^ 30 + v₂.toNat * 2 ^ 25 + v₃.toNat * 2 ^ 20 + v₄.toNat * 2 ^ 15 +
        v₅.toNat * 2 ^ 10 + v₆.toNat * 2 ^ 5 + v₇.toNat := by
    simp [groupValue, Nat.add_assoc]
  rw [decodeGroup, map_toNat_toBe_five, hvalue]
  simp only [List.cons.injEq, and_true]
  refine ⟨?_, ?_, ?_, ?_, ?_⟩ <;> omega

/-! ### Parts of a buffer -/

namespace Memory

theorem readBytes_eq_take_drop {m : Memory} {a k n : Nat} (h : a + k ≤ n) :
    readBytes m a k = ((readBytes m 0 n).drop a).take k := by
  refine List.ext_getElem (by simp; omega) fun i h₁ h₂ => ?_
  simp

/-- Buffers that agree on a range of bytes agree on each of them. -/
theorem read_eq_of_readBytes_eq {m m' : Memory} {n k : Nat} (h : readBytes m 0 n = readBytes m' 0 n)
    (hk : k < n) : read m k = read m' k := by
  simpa [hk, readBytes] using congrArg (·[k]?) h

end Memory

@[simp] theorem length_keyBytes (s : State) : s.keyBytes.length = s.keyLen.toNat := by simp [State.keyBytes]

@[simp] theorem length_txtBytes (s : State) : s.txtBytes.length = s.txtLen.toNat := by simp [State.txtBytes]

theorem getElem_txtBytes (s : State) {k : Nat} (h : k < s.txtBytes.length) :
    s.txtBytes[k] = Memory.read s.txtmem k := by
  simp [State.txtBytes]

/-! ### What B32DEC and B32ENC store -/

/-- The capacities of the key and of its text: a text of `TXT_CAP` characters is a key of `KEY_CAP` bytes. -/
theorem caps_of_legal {c : Config} (h : c.legal = true) :
    5 * c.txtCap = 8 * c.keyCap ∧ c.keyCap < 2 ^ 32 ∧ c.txtCap < 2 ^ 32 := by
  obtain ⟨hfive, -, -, hkey, -, htxt⟩ := sizesLegal_of_legal h
  exact ⟨by simp only [Config.txtCap]; omega, hkey, htxt⟩

/-- The key that a text decodes to, and its length (40_base32 R82). -/
theorem b32dec_writes {s : State} (hs : s.sound) {vs : List (BitVec 5)} (hl : s.txtLen.toNat ≤ s.cfg.txtCap)
    (h₈ : s.txtLen.toNat % 8 = 0) (hv : textValues s.txtBytes = some vs) :
    (commandWrites .b32dec s).keyLen.toNat = 5 * s.txtLen.toNat / 8 ∧
      (commandWrites .b32dec s).keyBytes = decodeGroups (s.txtLen.toNat / 8) vs := by
  obtain ⟨hcfg, -, hkey, -, -⟩ := hs
  obtain ⟨hcap, hk, -⟩ := caps_of_legal hcfg
  have hlen : (commandWrites .b32dec s).keyLen.toNat = 5 * s.txtLen.toNat / 8 :=
    Nat.mod_eq_of_lt (by omega)
  have hbytes : 5 * s.txtLen.toNat / 8 = (decodeGroups (s.txtLen.toNat / 8) vs).length := by
    rw [length_decodeGroups]
    omega
  refine ⟨hlen, ?_⟩
  rw [State.keyBytes, hlen, hbytes]
  simp only [commandWrites, hv, Option.getD_some]
  exact Memory.readBytes_writeBytes hkey (by omega)

/-- The text that a key encodes to, and its length (40_base32 R86). -/
theorem b32enc_writes {s : State} (hs : s.sound) (hl : s.keyLen.toNat ≤ s.cfg.keyCap)
    (h₅ : s.keyLen.toNat % 5 = 0) :
    (commandWrites .b32enc s).txtLen.toNat = 8 * s.keyLen.toNat / 5 ∧
      (commandWrites .b32enc s).txtBytes = encodeGroups (s.keyLen.toNat / 5) s.keyBytes := by
  obtain ⟨hcfg, -, -, -, htxt⟩ := hs
  obtain ⟨hcap, -, ht⟩ := caps_of_legal hcfg
  have hlen : (commandWrites .b32enc s).txtLen.toNat = 8 * s.keyLen.toNat / 5 :=
    Nat.mod_eq_of_lt (by omega)
  have hbytes : 8 * s.keyLen.toNat / 5 = (encodeGroups (s.keyLen.toNat / 5) s.keyBytes).length := by
    rw [length_encodeGroups]
    omega
  refine ⟨hlen, ?_⟩
  rw [State.txtBytes, hlen, hbytes]
  exact Memory.readBytes_writeBytes htxt (by omega)

/-- Each group of characters and the five bytes it decodes to. -/
theorem b32dec_group {s : State} (hs : s.sound) {vs : List (BitVec 5)} (hl : s.txtLen.toNat ≤ s.cfg.txtCap)
    (h₈ : s.txtLen.toNat % 8 = 0) (hv : textValues s.txtBytes = some vs) {g : Nat}
    (hg : g < s.txtLen.toNat / 8) :
    ∃ v : Fin 8 → BitVec 5,
      (∀ j : Fin 8, b32val (Memory.read s.txtmem (8 * g + j)) = some (v j)) ∧
      Memory.readBytes (commandWrites .b32dec s).keymem (5 * g) 5 =
        toBe (∑ j : Fin 8, (v j).toNat * 2 ^ (35 - 5 * (j : Nat))) 5 := by
  have hn : vs.length = s.txtLen.toNat := (length_textValues hv).trans (length_txtBytes s)
  obtain ⟨hlen, hkey⟩ := b32dec_writes hs hl h₈ hv
  refine ⟨fun j => vs[8 * g + (j : Nat)], fun j => ?_, ?_⟩
  · have hj : 8 * g + (j : Nat) < s.txtBytes.length := by rw [length_txtBytes]; omega
    rw [← getElem_textValues hv hj, getElem_txtBytes]
  · rw [Memory.readBytes_eq_take_drop (n := (commandWrites .b32dec s).keyLen.toNat) (by omega),
      ← State.keyBytes, hkey, take_drop_decodeGroups hg, take_drop_eq_ofFn (by omega), decodeGroup_ofFn]

/-- Each character of the encoded text, from the group of five bytes it stands for. -/
theorem b32enc_character {s : State} (hs : s.sound) (hl : s.keyLen.toNat ≤ s.cfg.keyCap)
    (h₅ : s.keyLen.toNat % 5 = 0) {g j : Nat} (hg : g < s.keyLen.toNat / 5) (hj : j < 8) :
    Memory.read (commandWrites .b32enc s).txtmem (8 * g + j) =
      b32char (BitVec.ofNat 5 (be (Memory.readBytes s.keymem (5 * g) 5) / 2 ^ (35 - 5 * j))) := by
  obtain ⟨hlen, htxt⟩ := b32enc_writes hs hl h₅
  have hk : 8 * g + j < (commandWrites .b32enc s).txtBytes.length := by
    rw [htxt, length_encodeGroups]
    omega
  calc Memory.read (commandWrites .b32enc s).txtmem (8 * g + j)
      = (commandWrites .b32enc s).txtBytes[8 * g + j] := (getElem_txtBytes _ hk).symm
    _ = b32char (BitVec.ofNat 5 (be ((s.keyBytes.drop (5 * g)).take 5) >>> (35 - 5 * j))) := by
        simp only [htxt]
        exact getElem_encodeGroups hg hj _
    _ = _ := by
        rw [Nat.shiftRight_eq_div_pow, State.keyBytes, ← Memory.readBytes_eq_take_drop (by omega)]

/-! ### RUN of the two commands -/

/-- `RUN m` reports the command's error. -/
theorem runCommand_err {s t : State} {i : Instr} (h : s.runCommand i = some t) : t.err = commandError i s := by
  rw [exec_err (runCommand_cases h).2, commandError_latch]

/-- `RUN m` that completes with ERR = 0 leaves the command's writes. -/
theorem eq_of_runCommand_success {s t : State} {i : Instr} (h : s.runCommand i = some t) (he : t.err = .none) :
    t = ((commandWrites i s).latch (encode i)).finish .none := by
  rw [runCommand_err h] at he
  exact Option.some.inj (h.symm.trans (runCommand_success (runCommand_cases h).1 he))

/-- What `RUN B32DEC` with ERR = 0 has read and leaves. -/
theorem runCommand_b32dec {s t : State} (hs : s.sound) (h : s.runCommand .b32dec = some t)
    (he : t.err = .none) :
    t.cfg = s.cfg ∧ s.txtLen.toNat ≤ s.cfg.txtCap ∧ s.txtLen.toNat % 8 = 0 ∧
      t.keyLen.toNat = 5 * s.txtLen.toNat / 8 ∧
      ∃ vs, textValues s.txtBytes = some vs ∧ t.keyBytes = decodeGroups (s.txtLen.toNat / 8) vs := by
  obtain ⟨hl, h₈, vs, hv⟩ := b32dec_success.1 ((runCommand_err h).symm.trans he)
  obtain ⟨hlen, hkey⟩ := b32dec_writes hs hl h₈ hv
  rw [eq_of_runCommand_success h he]
  exact ⟨rfl, hl, h₈, hlen, vs, hv, hkey⟩

/-- What `RUN B32ENC` with ERR = 0 has read and leaves. -/
theorem runCommand_b32enc {s t : State} (hs : s.sound) (h : s.runCommand .b32enc = some t)
    (he : t.err = .none) :
    t.cfg = s.cfg ∧ s.keyLen.toNat ≤ s.cfg.keyCap ∧ s.keyLen.toNat % 5 = 0 ∧
      t.txtLen.toNat = 8 * s.keyLen.toNat / 5 ∧ t.txtBytes = encodeGroups (s.keyLen.toNat / 5) s.keyBytes := by
  obtain ⟨hl, h₅⟩ := b32enc_success.1 ((runCommand_err h).symm.trans he)
  obtain ⟨hlen, htxt⟩ := b32enc_writes hs hl h₅
  rw [eq_of_runCommand_success h he]
  exact ⟨rfl, hl, h₅, hlen, htxt⟩

/-- The decoder accepts the encoder's text and gives the key back (40_base32 R87). -/
theorem runCommand_b32dec_of_encoded {s t : State} (hs : s.sound) (h : s.runCommand .b32enc = some t)
    (he : t.err = .none) :
    ∃ u, t.runCommand .b32dec = some u ∧ u.err = .none ∧ u.keyLen = s.keyLen ∧ u.keyBytes = s.keyBytes := by
  obtain ⟨hcfg, hl, h₅, hlen, htxt⟩ := runCommand_b32enc hs h he
  have hcap := (caps_of_legal hs.1).1
  have hvalues : textValues t.txtBytes = some (keyValues (s.keyLen.toNat / 5) s.keyBytes) := by
    rw [htxt, textValues_encodeGroups]
  have hok : commandError .b32dec t = .none :=
    b32dec_success.2 ⟨by rw [hcfg]; omega, by omega, _, hvalues⟩
  have hu := runCommand_success (runCommand_portOpen h) hok
  obtain ⟨-, -, -, hulen, vs, hvs, hukey⟩ := runCommand_b32dec (runCommand_sound hs h) hu rfl
  refine ⟨_, hu, rfl, BitVec.eq_of_toNat_eq (by omega), ?_⟩
  obtain rfl := Option.some.inj (hvs.symm.trans hvalues)
  rw [hukey, show t.txtLen.toNat / 8 = s.keyLen.toNat / 5 by omega]
  exact decodeGroups_keyValues (by rw [length_keyBytes]; omega)

/-- The encoder takes the decoded key and gives the text back (40_base32 R88). -/
theorem runCommand_b32enc_of_decoded {s t : State} (hs : s.sound) (h : s.runCommand .b32dec = some t)
    (he : t.err = .none) :
    ∃ u, t.runCommand .b32enc = some u ∧ u.err = .none ∧ u.txtLen = s.txtLen ∧ u.txtBytes = s.txtBytes := by
  obtain ⟨hcfg, hl, h₈, hlen, vs, hvs, hkey⟩ := runCommand_b32dec hs h he
  have hcap := (caps_of_legal hs.1).1
  have hok : commandError .b32enc t = .none := b32enc_success.2 ⟨by rw [hcfg]; omega, by omega⟩
  have hu := runCommand_success (runCommand_portOpen h) hok
  obtain ⟨-, -, -, hulen, hutxt⟩ := runCommand_b32enc (runCommand_sound hs h) hu rfl
  have hn : vs.length = s.txtLen.toNat := (length_textValues hvs).trans (length_txtBytes s)
  refine ⟨_, hu, rfl, BitVec.eq_of_toNat_eq (by omega), ?_⟩
  rw [hutxt, hkey, show t.keyLen.toNat / 5 = s.txtLen.toNat / 8 by omega,
    encodeGroups_decodeGroups (by omega), map_b32char_of_textValues hvs]

/-! ### The obligations -/

/-- Settles O12: the three errors in their order, and each group of the decoded text. -/
theorem b32decDecodesTheText : Obligations.B32decDecodesTheText := by
  refine ⟨rfl, fun s hs => ⟨fun hcap => ?_, fun hl h₈ => ?_, fun hl h₈ hbad => ?_, fun hl h₈ hgood => ?_⟩⟩
  · exact exec_of_error (by simp [commandError, hcap]) (by decide)
  · exact exec_of_error (by simp [commandError, hl, h₈]) (by decide)
  · exact exec_of_error (by simp [commandError, hl, h₈, textValues_txtBytes_eq_none.2 hbad]) (by decide)
  · obtain ⟨vs, hv⟩ : ∃ vs, textValues s.txtBytes = some vs := by
      refine Option.ne_none_iff_exists'.1 fun hnone => ?_
      obtain ⟨k, hk, hbad⟩ := textValues_txtBytes_eq_none.1 hnone
      exact hgood k hk hbad
    exact ⟨_, exec_of_success (b32dec_success.2 ⟨hl, h₈, vs, hv⟩), (b32dec_writes hs hl h₈ hv).1,
      fun g hg => b32dec_group hs hl h₈ hv hg,
      fun k hk => commandWrites_byteAt (i := .b32dec) (b := .keymem) fun n hn => by cases hn; exact hk, rfl⟩

/-- Settles O13: the error of a wrong length, and each character of the encoded key. -/
theorem b32encEncodesTheKey : Obligations.B32encEncodesTheKey := by
  refine ⟨rfl, fun s hs => ⟨fun hbad => exec_of_error (if_pos hbad) (by decide), fun hl h₅ => ?_⟩⟩
  exact ⟨_, exec_of_success (b32enc_success.2 ⟨hl, h₅⟩), (b32enc_writes hs hl h₅).1,
    fun g hg j hj => b32enc_character hs hl h₅ hg hj,
    fun k hk => commandWrites_byteAt (i := .b32enc) (b := .txtmem) fun n hn => by cases hn; exact hk, rfl⟩

/-- Settles O39: the bytes by arithmetic; a group's characters have the values of its number. -/
theorem groupsAreInverseBijections : Obligations.GroupsAreInverseBijections := by
  refine ⟨toNat_decodeGroup, fun b hb => ?_, fun c v hc hv => ?_⟩
  · rw [encodeGroup_eq, textValues_map_b32char, Option.map_some, decodeGroup_valuesOf hb]
  · rw [encodeGroup_decodeGroup ((length_textValues hv).trans hc), map_b32char_of_textValues hv]

/-- Settles O40: the encoder succeeds on such a key, and the decoder gives it back. -/
theorem decodeAfterEncodeRestoresTheKey : Obligations.DecodeAfterEncodeRestoresTheKey := by
  intro s hs ho hl h₅
  have ht := runCommand_success ho (b32enc_success.2 ⟨hl, h₅⟩)
  obtain ⟨u, hu, hue, hulen, hukey⟩ := runCommand_b32dec_of_encoded hs ht rfl
  rw [State.keyBytes, State.keyBytes, hulen] at hukey
  exact ⟨_, u, ht, hu, rfl, hue, hulen, fun k hk => Memory.read_eq_of_readBytes_eq hukey hk⟩

/-- Settles O41: the encoder gives the decoded text back, and the decoder takes every encoded key. -/
theorem encodeAfterDecodeRestoresTheText : Obligations.EncodeAfterDecodeRestoresTheText := by
  refine ⟨fun s t hs ht he => ?_, fun s t hs ht he => ?_⟩
  · obtain ⟨u, hu, hue, hulen, hutxt⟩ := runCommand_b32enc_of_decoded hs ht he
    rw [State.txtBytes, State.txtBytes, hulen] at hutxt
    exact ⟨u, hu, hue, hulen, fun k hk => Memory.read_eq_of_readBytes_eq hutxt hk⟩
  · obtain ⟨u, hu, hue, -, -⟩ := runCommand_b32dec_of_encoded hs ht he
    exact ⟨u, hu, hue⟩

/-- Settles O38: the 32 characters by computation; a byte has a value exactly in the two ranges. -/
theorem alphabetIsTheTable : Obligations.AlphabetIsTheTable :=
  ⟨by decide, b32val_b32char, b32val_eq_none_iff⟩

end Sys2Proof.Machine
end

section
/-! PROOFS. The family of 41_counter: the eight bytes that CTRSER writes (O7), and that they determine the
counter (O8). -/

namespace Sys2Proof.Machine

/-! ### The counter and its bytes -/

/-- The bytes of a number of two parts are the bytes of the upper part, then those of the lower one. -/
theorem toBe_append {v n : Nat} (hv : v < 256 ^ n) (k m : Nat) :
    toBe (k * 256 ^ n + v) (m + n) = toBe k m ++ toBe v n := by
  induction m with
  | zero => rw [Nat.zero_add, toBe_add_mul]; rfl
  | succ m ih =>
    have hshift : (k * 256 ^ n + v) >>> (8 * (m + n)) = k >>> (8 * m) := by
      rw [Nat.mul_add, Nat.add_comm (8 * m), Nat.shiftRight_add, Nat.shiftRight_eq_div_pow _ (8 * n),
        two_pow_eq_byte_pow, Nat.mul_comm k, Nat.mul_add_div (by positivity), Nat.div_eq_of_lt hv,
        Nat.add_zero]
    rw [Nat.add_right_comm, toBe_succ, toBe_succ, ih, hshift, List.cons_append]

/-- The four bytes of a register, from bits 31:24 down. -/
theorem toBe_word (w : Word) :
    toBe w.toNat 4 =
      [w.extractLsb' 24 8, w.extractLsb' 16 8, w.extractLsb' 8 8, w.extractLsb' 0 8] := rfl

/-- The bytes of the counter are those of CTR_HI, then those of CTR_LO (41_counter R100). -/
theorem toBe_counter (s : State) : toBe s.counter 8 = toBe s.ctrHi.toNat 4 ++ toBe s.ctrLo.toNat 4 :=
  toBe_append (n := 4) s.ctrLo.isLt s.ctrHi.toNat 4

theorem counter_lt (s : State) : s.counter < 2 ^ 64 := by
  have hhi := s.ctrHi.isLt
  have hlo := s.ctrLo.isLt
  simp only [State.counter]
  omega

/-- The two halves are determined by the number. -/
theorem counter_eq_iff (s s' : State) :
    s.counter = s'.counter ↔ s.ctrHi = s'.ctrHi ∧ s.ctrLo = s'.ctrLo := by
  have hlo := s.ctrLo.isLt
  have hlo' := s'.ctrLo.isLt
  simp only [State.counter, ← BitVec.toNat_inj]
  omega

/-- Every number of 64 bits is a counter, by its quotient and its remainder. -/
theorem counter_of_halves {s : State} {n : Nat} (hn : n < 2 ^ 64)
    (hhi : s.ctrHi = BitVec.ofNat 32 (n / 2 ^ 32)) (hlo : s.ctrLo = BitVec.ofNat 32 n) : s.counter = n := by
  simp only [State.counter, hhi, hlo, BitVec.toNat_ofNat]
  omega

/-! ### What CTRSER leaves -/

/-- A message buffer holds the eight bytes of a counter. -/
theorem eight_le_msgCap {c : Config} (h : c.legal = true) : 8 ≤ c.msgCap := by
  have hcaps := sizesLegal_of_legal h
  omega

/-- 'CTRSER succeeds from every state' (41_counter R100). -/
theorem exec_ctrser (s : State) : exec .ctrser s = .next ((commandWrites .ctrser s).finish .none) :=
  exec_of_success rfl

/-- The message that CTRSER leaves, and its length. -/
theorem ctrser_message {s t : State} (hs : s.sound) (h : exec .ctrser s = .next t) :
    Memory.readBytes t.msgmem 0 8 = toBe s.counter 8 ∧ t.msgLen = 8 := by
  obtain rfl := Host.Outcome.next.inj ((exec_ctrser s).symm.trans h)
  obtain ⟨hcfg, -, -, hmsg, -⟩ := hs
  have hbytes := Memory.readBytes_writeBytes (bs := toBe s.counter 8) hmsg (by simp [eight_le_msgCap hcfg])
  rw [length_toBe] at hbytes
  exact ⟨hbytes, rfl⟩

/-- The number that the message stands for is the counter (41_counter R101). -/
theorem be_ctrser_message {s t : State} (hs : s.sound) (h : exec .ctrser s = .next t) :
    be (Memory.readBytes t.msgmem 0 8) = s.counter := by
  rw [(ctrser_message hs h).1, be_toBe]
  exact Nat.mod_eq_of_lt (counter_lt s)

/-- The bytes of the message, as R100 lists them. -/
theorem ctrser_message_bytes {s t : State} (hs : s.sound) (h : exec .ctrser s = .next t) :
    Memory.readBytes t.msgmem 0 8 =
      [s.ctrHi.extractLsb' 24 8, s.ctrHi.extractLsb' 16 8, s.ctrHi.extractLsb' 8 8, s.ctrHi.extractLsb' 0 8,
        s.ctrLo.extractLsb' 24 8, s.ctrLo.extractLsb' 16 8, s.ctrLo.extractLsb' 8 8,
        s.ctrLo.extractLsb' 0 8] := by
  rw [(ctrser_message hs h).1, toBe_counter, toBe_word, toBe_word]
  rfl

/-! ### The obligations -/

/-- Settles O7: the eight bytes one by one; the other bytes are outside of the ones written. -/
theorem ctrserSerializesTheCounter : Obligations.CtrserSerializesTheCounter := by
  refine ⟨rfl, fun s hs => ⟨_, exec_ctrser s, ?_⟩⟩
  have hmessage := ctrser_message_bytes hs (exec_ctrser s)
  simp only [Memory.readBytes, List.range_succ, List.range_zero, List.nil_append, List.cons_append,
    List.map_cons, List.map_nil, List.cons.injEq] at hmessage
  obtain ⟨h₀, h₁, h₂, h₃, h₄, h₅, h₆, h₇, -⟩ := hmessage
  exact ⟨h₀, h₁, h₂, h₃, h₄, h₅, h₆, h₇,
    fun k hk => commandWrites_byteAt (i := .ctrser) (b := .msgmem) fun n hn => by cases hn; exact hk, rfl⟩

/-- Settles O8: the message read as a number is the counter; eight bytes are the bytes of their number. -/
theorem counterBytesDetermineTheCounter : Obligations.CounterBytesDetermineTheCounter := by
  refine ⟨fun s t hs ht => ⟨be_ctrser_message hs ht, (ctrser_message hs ht).2⟩,
    fun s s' t t' hs hs' ht ht' heq => ?_, fun bytes hlen => ?_⟩
  · rw [← counter_eq_iff, ← be_ctrser_message hs ht, ← be_ctrser_message hs' ht', heq]
  · have hlt : be bytes < 2 ^ 64 := by simpa [hlen] using be_lt bytes
    refine ⟨BitVec.ofNat 32 (be bytes / 2 ^ 32), BitVec.ofNat 32 (be bytes), fun s t hs hhi hlo ht => ?_⟩
    rw [(ctrser_message hs ht).1, counter_of_halves hlt hhi hlo, ← hlen, toBe_be]

end Sys2Proof.Machine
end

section
/-! PROOFS. The family of 42_hmac_sha1: the padding (O42), the schedule (O43), the rounds (O44), the blocks
(O45), the construction of HMAC and its laws (O46, O47), and what the command HMAC stores (O9). -/

namespace Sys2Proof.Machine

namespace Sha1

/-! ### The padding -/

/-- The zeros are the rest of the last block (42_hmac_sha1 R111). -/
theorem padZeros_eq_emod (n : Nat) : (padZeros n : Int) = (55 - (n : Int)) % 64 := by
  unfold padZeros
  omega

theorem padded_mod (n : Nat) : (n + 1 + padZeros n + 8) % 64 = 0 := by
  unfold padZeros
  omega

/-- No fewer zeros fill the last block: there are fewer than 64 of them. -/
theorem padZeros_le {n z : Nat} (h : (n + 1 + z + 8) % 64 = 0) : padZeros n ≤ z := by
  unfold padZeros
  omega

theorem length_pad_eq_blocks (m : List Byte) : (pad m).length = 64 * ((m.length + 8) / 64 + 1) := by
  rw [length_pad]
  unfold padZeros
  omega

/-! ### The schedule -/

/-- The last word that `extend` adds is the next word after all the others. -/
theorem extend_succ (n : Nat) (ws : List Word) :
    extend (n + 1) ws = nextWord (extend n ws) :: extend n ws := by
  induction n generalizing ws with
  | zero => rfl
  | succ n ih => exact ih (nextWord ws :: ws)

/-- The words given at the start stand behind the ones added. -/
theorem drop_extend (n : Nat) (ws : List Word) : (extend n ws).drop n = ws := by
  induction n with
  | zero => rfl
  | succ n ih => rw [extend_succ, List.drop_succ_cons, ih]

theorem getD_drop (ws : List Word) (k i : Nat) : (ws.drop k).getD i 0 = ws.getD (k + i) 0 := by
  simp [List.getD_eq_getElem?_getD]

/-- Each word added is the next word after the ones behind it. -/
theorem getD_extend_of_lt {n i : Nat} (hi : i < n) (ws : List Word) :
    (extend n ws).getD i 0 = nextWord ((extend n ws).drop (i + 1)) := by
  induction n generalizing i with
  | zero => omega
  | succ n ih =>
    rw [extend_succ]
    cases i with
    | zero => rfl
    | succ i => exact ih (by omega)

@[simp] theorem length_schedule (m : List Word) : (schedule m).length = m.length + 64 := by simp [schedule]

/-- A word of the schedule by its place from the end, as `extend` lists it. -/
theorem getD_schedule {m : List Word} {t : Nat} (ht : t < m.length + 64) :
    (schedule m).getD t 0 = (extend 64 m.reverse).getD (m.length + 64 - 1 - t) 0 := by
  have hlen : (extend 64 m.reverse).length = m.length + 64 := by simp
  rw [schedule, List.getD_reverse t (by rw [hlen]; exact ht), hlen]

/-- The schedule begins with the words of the block. -/
theorem getD_schedule_of_lt {m : List Word} {t : Nat} (ht : t < m.length) :
    (schedule m).getD t 0 = m.getD t 0 := by
  have hplace : m.length + 64 - 1 - t = 64 + (m.length - 1 - t) := by omega
  rw [getD_schedule (by omega), hplace, ← getD_drop, drop_extend,
    List.getD_reverse _ (by omega), show m.length - 1 - (m.length - 1 - t) = t by omega]

/-- Each later word of the schedule follows from the words 3, 8, 14 and 16 places before it (42_hmac_sha1
R113). -/
theorem getD_schedule_recurrence {m : List Word} (hm : 16 ≤ m.length) {t : Nat} (hlow : m.length ≤ t)
    (ht : t < m.length + 64) :
    (schedule m).getD t 0 =
      ((schedule m).getD (t - 3) 0 ^^^ (schedule m).getD (t - 8) 0 ^^^ (schedule m).getD (t - 14) 0 ^^^
        (schedule m).getD (t - 16) 0).rotateLeft 1 := by
  have hback (j : Nat) (hj : j < 16) :
      (schedule m).getD (t - (j + 1)) 0 =
        ((extend 64 m.reverse).drop (m.length + 64 - 1 - t + 1)).getD j 0 := by
    rw [getD_schedule (by omega), getD_drop]
    congr 1
    omega
  rw [hback 2 (by decide), hback 7 (by decide), hback 13 (by decide), hback 15 (by decide),
    getD_schedule ht, getD_extend_of_lt (by omega), nextWord]

/-! ### The rounds -/

/-- One more word is one more round. -/
theorem rounds_append_singleton (t : Nat) (ws : List Word) (w : Word) (h : Hash) :
    rounds t (ws ++ [w]) h = oneRound (t + ws.length) w (rounds t ws h) := by
  induction ws generalizing t h with
  | nil => rfl
  | cons x ws ih =>
    rw [List.cons_append, rounds, rounds, ih, List.length_cons, Nat.add_right_comm, Nat.add_assoc]

/-- The round variables before round t. -/
def roundVars (h : Hash) (ws : List Word) (t : Nat) : Hash := rounds 0 (ws.take t) h

theorem roundVars_succ (h : Hash) {ws : List Word} {t : Nat} (ht : t < ws.length) :
    roundVars h ws (t + 1) = oneRound t (ws.getD t 0) (roundVars h ws t) := by
  rw [roundVars, List.take_succ_eq_append_getElem ht, rounds_append_singleton, List.length_take_of_le ht.le,
    Nat.zero_add, List.getD_eq_getElem _ _ ht, roundVars]

theorem compress_eq_add_roundVars (h : Hash) (block : List Byte) :
    compress h block = h.add (roundVars h (schedule (wordsOf 16 block)) 80) := by
  rw [compress, roundVars, List.take_of_length_le (by simp)]

/-! ### The blocks -/

/-- One more block is put into the hash value after the others. -/
theorem foldBlocks_succ (f : Hash → List Byte → Hash) (n : Nat) (bs : List Byte) (h : Hash) :
    foldBlocks f (n + 1) bs h = f (foldBlocks f n bs h) ((bs.drop (64 * n)).take 64) := by
  induction n generalizing bs h with
  | zero => rfl
  | succ n ih =>
    rw [foldBlocks, ih, foldBlocks, List.drop_drop, Nat.mul_succ, Nat.add_comm 64]

end Sha1

/-! ### The key of HMAC -/

/-- Zeros at the end do not change the bytes read from a sequence. -/
theorem getD_append_zeros (bs : List Byte) (n i : Nat) : (bs ++ zeros n).getD i 0 = bs.getD i 0 := by
  rcases Nat.lt_or_ge i bs.length with hi | hi
  · rw [List.getD_append _ _ _ _ hi]
  · rw [List.getD_append_right _ _ _ _ hi, List.getD_eq_default bs _ hi, zeros,
      List.getD_eq_getElem?_getD, List.getElem?_getD_replicate_default_eq]

/-- Zeros after a zero are one zero more. -/
theorem append_zero_append_zeros (bs : List Byte) (n : Nat) :
    bs ++ [0] ++ zeros n = bs ++ zeros (n + 1) := by
  simp [zeros, List.replicate_succ]

theorem blockKey_of_le {key : List Byte} (h : key.length ≤ 64) :
    blockKey key = key ++ zeros (64 - key.length) := if_neg (by omega)

theorem blockKey_of_lt {key : List Byte} (h : 64 < key.length) : blockKey key = sha1 key ++ zeros 44 :=
  if_pos h

theorem getD_blockKey (key : List Byte) (i : Nat) :
    (blockKey key).getD i 0 = (if 64 < key.length then sha1 key else key).getD i 0 := by
  unfold blockKey
  split <;> exact getD_append_zeros _ _ i

/-- A zero byte at the end of a short key is one of the zeros that fill it up (42_hmac_sha1 R119). -/
theorem blockKey_append_zero {key : List Byte} (h : key.length ≤ 63) :
    blockKey (key ++ [0]) = blockKey key := by
  have hlen : (key ++ [0]).length = key.length + 1 := by simp
  rw [blockKey_of_le (by omega), blockKey_of_le (by omega), hlen, append_zero_append_zeros]
  congr 2
  omega

/-- A long key is used by its hash (42_hmac_sha1 R119). -/
theorem blockKey_sha1 {key : List Byte} (h : 64 < key.length) : blockKey (sha1 key) = blockKey key := by
  rw [blockKey_of_lt h, blockKey_of_le (by simp), length_sha1]

/-- HMAC reads its key by the padded key alone. -/
theorem hmacSha1_congr {key key' : List Byte} (h : blockKey key = blockKey key') (msg : List Byte) :
    hmacSha1 key msg = hmacSha1 key' msg := by
  rw [hmacSha1, hmacSha1, h]

/-! ### The command HMAC -/

/-- A digest written to its buffer is read back (42_hmac_sha1 R118). -/
theorem readBytes_writeBytes_hmacSha1 {m : Memory} (hm : Memory.wf 20 m) (key msg : List Byte) :
    Memory.readBytes (Memory.writeBytes m 0 (hmacSha1 key msg)) 0 20 = hmacSha1 key msg := by
  have hlen := length_hmacSha1 key msg
  generalize hmacSha1 key msg = digest at hlen ⊢
  rw [← hlen]
  exact Memory.readBytes_writeBytes hm (by omega)

/-- The digest that HMAC leaves. -/
theorem hmac_digest {s : State} (hs : s.sound) :
    Memory.readBytes (commandWrites .hmac s).digest 0 20 = hmacSha1 s.keyBytes s.msgBytes := by
  obtain ⟨-, hdigest, -⟩ := hs
  simp only [commandWrites]
  exact readBytes_writeBytes_hmacSha1 hdigest s.keyBytes s.msgBytes

/-- HMAC leaves the bytes of the buffer from 20 on. -/
theorem hmac_digest_frame (s : State) {k : Nat} (hk : 20 ≤ k) :
    Memory.read (commandWrites .hmac s).digest k = Memory.read s.digest k := by
  have hbyte : (commandWrites .hmac s).byteAt .digest k = s.byteAt .digest k :=
    commandWrites_byteAt fun n hn => by cases hn; exact hk
  simpa only [State.byteAt, State.buffer] using hbyte

/-- HMAC changes no field but the digest, BUSY and ERR. -/
theorem hmac_finish (s : State) :
    (commandWrites .hmac s).finish .none =
      { s with digest := ((commandWrites .hmac s).finish .none).digest, busy := false, err := .none } := by
  simp only [commandWrites, State.finish]

/-! ### The obligations -/

/-- Settles O9: the 20 bytes are read back from the digest; one length too large is the error. -/
theorem hmacWritesTheDigest : Obligations.HmacWritesTheDigest := by
  refine ⟨rfl, fun s hs => ⟨fun hkey hmsg => ?_, fun hbad => ?_⟩⟩
  · refine ⟨_, exec_of_success (hmac_success.2 ⟨hkey, hmsg⟩), ?_, fun k hk => ?_, hmac_finish s⟩ <;>
      rw [State.finish_digest]
    · exact hmac_digest hs
    · exact hmac_digest_frame s hk
  · exact exec_of_error (if_pos hbad) (by decide)

/-- Settles O42: the number of zeros is the least that fills the last block. -/
theorem paddingFillsWholeBlocks : Obligations.PaddingFillsWholeBlocks := fun m =>
  ⟨Sha1.padZeros m.length, Sha1.padZeros_eq_emod _, by simp [Sha1.pad, zeros], Sha1.padded_mod _,
    fun _ => Sha1.padZeros_le, Sha1.length_pad_eq_blocks m⟩

/-- Settles O43: the first sixteen words are those of the block, the others follow from the ones before. -/
theorem scheduleFollowsItsRecurrence : Obligations.ScheduleFollowsItsRecurrence := by
  intro block _
  have hlen : (Sha1.wordsOf 16 block).length = 16 := Sha1.length_wordsOf 16 block
  refine ⟨by simp, fun t ht => ?_, fun t hlow ht => ?_⟩
  · rw [Sha1.getD_schedule_of_lt (by omega), List.getD_eq_getElem _ _ (by omega), Sha1.getElem_wordsOf]
  · exact Sha1.getD_schedule_recurrence (by omega) (by omega) (by omega)

/-- Settles O44: the round variables are those after the first t words of the schedule. -/
theorem compressionFollowsItsRounds : Obligations.CompressionFollowsItsRounds := fun h block _ =>
  ⟨Sha1.roundVars h (Sha1.schedule (Sha1.wordsOf 16 block)), rfl,
    fun _ ht => Sha1.roundVars_succ h (by simpa using ht), Sha1.compress_eq_add_roundVars h block⟩

/-- Settles O45: the hash values are those after the first i blocks. -/
theorem sha1ChainsItsBlocks : Obligations.Sha1ChainsItsBlocks := fun m =>
  ⟨fun i => Sha1.foldBlocks Sha1.compress i (Sha1.pad m) Sha1.initial, rfl,
    fun i _ => Sha1.foldBlocks_succ Sha1.compress i (Sha1.pad m) Sha1.initial, rfl, length_sha1 m⟩

/-- Settles O46: the padded key is `blockKey`. -/
theorem hmacFollowsItsConstruction : Obligations.HmacFollowsItsConstruction := fun key _ =>
  ⟨blockKey key, length_blockKey key, fun i _ => getD_blockKey key i, rfl⟩

/-- Settles O47: the two keys of each law have one padded key. -/
theorem hmacKeyLaws : Obligations.HmacKeyLaws :=
  ⟨fun _ msg hkey => hmacSha1_congr (blockKey_append_zero hkey).symm msg,
    fun _ msg hkey => hmacSha1_congr (blockKey_sha1 hkey).symm msg, length_hmacSha1⟩

end Sys2Proof.Machine
end

section
/-! PROOFS. The family of 43_truncation: what DOFF (O10) and TRUNC (O11) write, and the two run one after the
other (O48). -/

namespace Sys2Proof.Machine

/-! ### The offset and the window as numbers -/

/-- The offset that DOFF takes is the remainder of the last digest byte (43_truncation R140). -/
theorem toNat_doff_offset (s : State) :
    (commandWrites .doff s).offset.toNat = (s.digestByte 19).toNat % 16 := by
  rw [commandWrites, BitVec.toNat_setWidth, BitVec.toNat_and, show (0x0F : Byte).toNat = 2 ^ 4 - 1 from rfl,
    Nat.and_two_pow_sub_one_eq_mod]
  exact Nat.mod_mod _ _

/-- The four bytes of a window, added up (00_scope section 5). -/
theorem be_readBytes_four (m : Memory) (o : Nat) :
    be (Memory.readBytes m o 4) = (Memory.read m o).toNat * 2 ^ 24 + (Memory.read m (o + 1)).toNat * 2 ^ 16 +
      (Memory.read m (o + 2)).toNat * 2 ^ 8 + (Memory.read m (o + 3)).toNat := by
  simp only [Memory.readBytes, List.range_succ, List.range_zero, List.nil_append, List.cons_append,
    List.map_cons, List.map_nil, be, List.length_cons, List.length_nil, Nat.add_zero]
  omega

/-- The mask of the first byte is a remainder of the whole window: `be(..) & 0x7FFFFFFF` (43_truncation
R141). -/
theorem toNat_windowValue_eq_be_mod (s : State) (o : Nat) :
    (windowValue s o).toNat = be (Memory.readBytes s.digest o 4) % 2 ^ 31 := by
  have hy := (s.digestByte (o + 1)).isLt
  have hz := (s.digestByte (o + 2)).isLt
  have hw := (s.digestByte (o + 3)).isLt
  rw [toNat_windowValue, be_readBytes_four]
  simp only [State.digestByte] at *
  omega

/-- 'No offset can be out of range' (43_truncation R141): the last window ends before the last digest
byte. -/
theorem offset_window_lt (s : State) : s.offset.toNat + 3 < 19 := by
  have ho := s.offset.isLt
  omega

/-! ### The obligations -/

/-- Settles O10: DOFF succeeds, and the four bits it keeps are the remainder by 16. -/
theorem doffTakesTheLowFourBits : Obligations.DoffTakesTheLowFourBits :=
  ⟨rfl, fun s => ⟨_, exec_of_success rfl, toNat_doff_offset s, rfl⟩⟩

/-- Settles O11: TRUNC succeeds, and its window is the formula of R141 in both forms. -/
theorem truncAssemblesTheWindow : Obligations.TruncAssemblesTheWindow :=
  ⟨rfl, fun s => ⟨_, exec_of_success rfl, toNat_windowValue s s.offset.toNat,
    toNat_windowValue_eq_be_mod s s.offset.toNat, offset_window_lt s, rfl⟩⟩

/-- Settles O48: DOFF leaves the digest and the open port to TRUNC, whose window is then at the offset that
DOFF took. -/
theorem dynamicTruncation : Obligations.DynamicTruncation := by
  intro s ho
  have hdoff := runCommand_success (i := .doff) ho rfl
  have htrunc := runCommand_success (i := .trunc) (runCommand_portOpen hdoff) rfl
  refine ⟨_, _, hdoff, htrunc, toNat_doff_offset s, rfl, Nat.le_of_lt_succ (BitVec.isLt _), ?_⟩
  show (windowValue s (commandWrites .doff s).offset.toNat).toNat = _
  rw [toNat_doff_offset, toNat_windowValue_eq_be_mod, State.digestByte]

end Sys2Proof.Machine
end

section
/-! PROOFS. The family of 44_host_composition, the functions that the host computes itself: the counter of a
time (O49), the decimal digits (O50), and the remaining seconds (O51). -/

namespace Sys2Proof.Machine

/-! ### The counter of a time -/

theorem buildCounter_eq_some_iff {T : ℚ} {stepSeconds stepOffset : Int} {c : Nat} :
    buildCounter T stepSeconds stepOffset = some c ↔
      1 ≤ stepSeconds ∧ 0 ≤ T ∧ c < 2 ^ 64 ∧ ⌊T / (stepSeconds : ℚ)⌋ = (c : Int) - stepOffset := by
  simp only [buildCounter]
  split_ifs with hdomain hrange
  · simp only [Option.some.injEq, hdomain, true_and]
    omega
  · simp only [hdomain, true_and, false_iff]
    omega
  · simp only [false_iff]
    tauto

/-- The quotient by a step of at least 1, without the division. -/
theorem floor_div_eq_iff {T : ℚ} {stepSeconds : Int} (h : 1 ≤ stepSeconds) (z : Int) :
    ⌊T / (stepSeconds : ℚ)⌋ = z ↔ (z : ℚ) * stepSeconds ≤ T ∧ T < ((z : ℚ) + 1) * stepSeconds := by
  have hpos : (0 : ℚ) < stepSeconds := by exact_mod_cast h
  rw [Int.floor_eq_iff, le_div_iff₀ hpos, div_lt_iff₀ hpos]

theorem buildCounter_lt {T : ℚ} {stepSeconds stepOffset : Int} {c : Nat}
    (h : buildCounter T stepSeconds stepOffset = some c) : c < 2 ^ 64 := by
  obtain ⟨-, -, hlt, -⟩ := buildCounter_eq_some_iff.1 h
  exact hlt

/-! ### Decimal digits -/

/-- The n lowest decimal digits of a number, as characters (44_host_composition R152). -/
def decimalDigits (r n : Nat) : List Byte :=
  (List.range n).map fun i => BitVec.ofNat 8 (0x30 + r / 10 ^ (n - 1 - i) % 10)

@[simp] theorem length_decimalDigits (r n : Nat) : (decimalDigits r n).length = n := by
  simp [decimalDigits]

theorem extractDigits_eq {v n : Nat} (hv : v < 2 ^ 31) (hn : 1 ≤ n) :
    extractDigits v n = some (decimalDigits (v % 10 ^ n) n) :=
  if_pos ⟨hv, hn⟩

/-- The last digit is the remainder by 10, those before it are the digits of the quotient. -/
theorem decimalDigits_succ (r n : Nat) :
    decimalDigits r (n + 1) = decimalDigits (r / 10) n ++ [BitVec.ofNat 8 (0x30 + r % 10)] := by
  have hinit : ∀ i ∈ List.range n, r / 10 ^ (n + 1 - 1 - i) = r / 10 / 10 ^ (n - 1 - i) := fun i hi => by
    have hlt := List.mem_range.1 hi
    rw [Nat.div_div_eq_div_mul, ← pow_succ', show n - 1 - i + 1 = n + 1 - 1 - i by omega]
  simp only [decimalDigits, List.range_succ, List.map_append, List.map_cons, List.map_nil,
    Nat.add_sub_cancel, Nat.sub_self, pow_zero, Nat.div_one]
  congr 1
  exact List.map_congr_left fun i hi => by rw [← hinit i hi, Nat.add_sub_cancel]

theorem toNat_decimalDigit (r : Nat) : (BitVec.ofNat 8 (0x30 + r % 10)).toNat = 0x30 + r % 10 := by
  rw [BitVec.toNat_ofNat]
  omega

theorem mem_decimalDigits {r n : Nat} {c : Byte} (h : c ∈ decimalDigits r n) :
    0x30 ≤ c.toNat ∧ c.toNat ≤ 0x39 := by
  obtain ⟨i, -, rfl⟩ := List.mem_map.1 h
  rw [toNat_decimalDigit]
  omega

/-- The number that decimal digits stand for. -/
def decimalValue (code : List Byte) : Nat := code.foldl (fun acc c => acc * 10 + (c.toNat - 0x30)) 0

theorem decimalValue_append_digit (code : List Byte) (c : Byte) :
    decimalValue (code ++ [c]) = decimalValue code * 10 + (c.toNat - 0x30) := by
  simp [decimalValue]

theorem decimalValue_decimalDigits (r n : Nat) : decimalValue (decimalDigits r n) = r % 10 ^ n := by
  induction n generalizing r with
  | zero => simp [decimalDigits, decimalValue, Nat.mod_one]
  | succ n ih =>
    rw [decimalDigits_succ, decimalValue_append_digit, ih, toNat_decimalDigit, pow_succ', Nat.mod_mul]
    omega

/-! ### The obligations -/

/-- Settles O49: the floor is the quotient, so the counter is it plus the offset. -/
theorem buildCounterIsTheFloor : Obligations.BuildCounterIsTheFloor := by
  intro T stepSeconds stepOffset c
  rw [buildCounter_eq_some_iff]
  refine and_congr_right fun hstep => ?_
  rw [floor_div_eq_iff hstep]
  push_cast
  rfl

/-- Settles O50: the digits one after another, from the last one up. -/
theorem extractDigitsIsDecimal : Obligations.ExtractDigitsIsDecimal := by
  refine fun v n => ⟨fun hn hv => ?_, fun hn => by simp [extractDigits, hn]⟩
  refine ⟨_, extractDigits_eq hv hn, length_decimalDigits _ _, fun c => mem_decimalDigits, ?_⟩
  exact (decimalValue_decimalDigits _ n).trans (Nat.mod_mod _ _)

/-- Settles O51: the remainder of the division by the step is what is missing. -/
theorem remainingSecondsReachTheNextStep : Obligations.RemainingSecondsReachTheNextStep := by
  intro T stepSeconds hstep hT
  have hlow := Int.emod_nonneg ⌊T⌋ (b := stepSeconds) (by omega)
  have hhigh := Int.emod_lt_of_pos ⌊T⌋ (b := stepSeconds) (by omega)
  have hsum : ⌊T⌋ + (stepSeconds - ⌊T⌋ % stepSeconds) = stepSeconds * (⌊T⌋ / stepSeconds + 1) := by
    linarith [Int.mul_ediv_add_emod ⌊T⌋ stepSeconds]
  refine ⟨_, if_pos ⟨hstep, hT⟩, by omega, by omega, rfl, ?_⟩
  rw [hsum, Int.mul_emod_right]

end Sys2Proof.Machine
end

section
/-! PROOFS. The family of 44_host_composition, the functions on states: the token (O52) and its window (O54),
the generated secret (O55), and the decoded one (O56). -/

namespace Sys2Proof.Machine

/-! ### The loads as functions -/

theorem loadKey_eq_some_iff {s t : State} {key : List Byte} :
    s.loadKey key = some t ↔
      s.portOpen = true ∧ key.length ≤ s.cfg.keyCap ∧ s.loaded .keymem .keyLen key = t := by
  unfold State.loadKey
  split_ifs with h
  · rw [Option.some.injEq, and_iff_right h.1, and_iff_right h.2]
    rfl
  · simp only [false_iff]
    tauto

theorem loadTxt_eq_some_iff {s t : State} {text : List Byte} :
    s.loadTxt text = some t ↔
      s.portOpen = true ∧ text.length ≤ s.cfg.txtCap ∧ s.loaded .txtmem .txtLen text = t := by
  unfold State.loadTxt
  split_ifs with h
  · rw [Option.some.injEq, and_iff_right h.1, and_iff_right h.2]
    rfl
  · simp only [false_iff]
    tauto

theorem setBuffer_sound {s : State} (hs : s.sound) {b : Buf} {m : Memory}
    (hm : Memory.wf (b.cap s.cfg) m) : (s.setBuffer b m).sound := by
  obtain ⟨hlegal, hwf⟩ := (sound_iff s).1 hs
  refine (sound_iff _).2 ⟨by simpa using hlegal, fun b' => ?_⟩
  rw [State.setBuffer_cfg]
  by_cases hb : b' = b
  · subst hb
    simpa using hm
  · simpa [State.buffer_setBuffer_ne s m hb] using hwf b'

@[simp] theorem loaded_cfg (s : State) (b : Buf) (len : Reg) (bytes : List Byte) :
    (s.loaded b len bytes).cfg = s.cfg :=
  (store_cfg _ (.reg len) _).trans (State.setBuffer_cfg s b _)

theorem loaded_sound {s : State} (hs : s.sound) {b : Buf} {bytes : List Byte}
    (hfit : bytes.length ≤ b.cap s.cfg) (len : Reg) : (s.loaded b len bytes).sound :=
  writeReg_sound (setBuffer_sound hs (Memory.wf_writeBytes (((sound_iff s).1 hs).2 b) (by omega))) len _

/-- After the load of a key it is the key of the core. -/
theorem loaded_key {s : State} (hs : s.sound) {key : List Byte} (hfit : key.length ≤ s.cfg.keyCap) :
    (s.loaded .keymem .keyLen key).keyLen.toNat = key.length ∧
      (s.loaded .keymem .keyLen key).keyBytes = key := by
  obtain ⟨hlegal, hwf⟩ := (sound_iff s).1 hs
  have hcap : s.cfg.keyCap < 2 ^ 32 := cap_lt_of_legal hlegal .keymem
  have hlen : (s.loaded .keymem .keyLen key).keyLen.toNat = key.length := Nat.mod_eq_of_lt (by omega)
  refine ⟨hlen, ?_⟩
  rw [State.keyBytes, hlen]
  exact Memory.readBytes_writeBytes (hwf .keymem) hfit

/-- After the load of a text it is the text of the core. -/
theorem loaded_text {s : State} (hs : s.sound) {text : List Byte} (hfit : text.length ≤ s.cfg.txtCap) :
    (s.loaded .txtmem .txtLen text).txtLen.toNat = text.length ∧
      (s.loaded .txtmem .txtLen text).txtBytes = text := by
  obtain ⟨hlegal, hwf⟩ := (sound_iff s).1 hs
  have hcap : s.cfg.txtCap < 2 ^ 32 := cap_lt_of_legal hlegal .txtmem
  have hlen : (s.loaded .txtmem .txtLen text).txtLen.toNat = text.length := Nat.mod_eq_of_lt (by omega)
  refine ⟨hlen, ?_⟩
  rw [State.txtBytes, hlen]
  exact Memory.readBytes_writeBytes (hwf .txtmem) hfit

/-- The core after the load of a counter. -/
def State.withCounter (s : State) (v : BitVec 64) : State :=
  { s with ctrHi := v.extractLsb' 32 32, ctrLo := v.extractLsb' 0 32 }

theorem loadCtr_eq_some_iff {s t : State} {v : BitVec 64} :
    s.loadCtr v = some t ↔ s.portOpen = true ∧ s.withCounter v = t := by
  unfold State.loadCtr
  split_ifs with h
  · rw [Option.some.injEq, and_iff_right h]
    rfl
  · simp [h]

@[simp] theorem withCounter_cfg (s : State) (v : BitVec 64) : (s.withCounter v).cfg = s.cfg := rfl

@[simp] theorem counter_withCounter (s : State) (v : BitVec 64) : (s.withCounter v).counter = v.toNat := by
  obtain ⟨hhigh, hlow⟩ := toNat_halves v
  simp only [State.counter, State.withCounter, hhigh, hlow]
  omega

/-! ### The token of a loaded key -/

/-- The value of the window that the last byte of a digest selects (43_truncation R142). -/
def truncatedValue (d : List Byte) : Nat :=
  be ((d.drop ((d.getD 19 0).toNat % 16)).take 4) % 2 ^ 31

/-- The value whose decimal digits are the token (44_host_composition R153). -/
def tokenValue (key : List Byte) (counter : Nat) : Nat := truncatedValue (hmacSha1 key (toBe counter 8))

theorem tokenValue_lt (key : List Byte) (counter : Nat) : tokenValue key counter < 2 ^ 31 :=
  Nat.mod_lt _ (by norm_num)

/-- The window of the digest as TRUNC takes it from the buffer. -/
theorem truncatedValue_readBytes (m : Memory) :
    truncatedValue (Memory.readBytes m 0 20) =
      be (Memory.readBytes m ((Memory.read m 19).toNat % 16) 4) % 2 ^ 31 := by
  have hlast : (Memory.readBytes m 0 20).getD 19 0 = Memory.read m 19 := by simp [Memory.readBytes]
  rw [truncatedValue, hlast, ← Memory.readBytes_eq_take_drop (by omega)]

theorem runCommand_cfg {s t : State} {i : Instr} (h : s.runCommand i = some t) : t.cfg = s.cfg := by
  obtain ⟨-, hcfg, -⟩ := exec_frame (runCommand_cases h).2
  exact hcfg

/-- `RUN CTRSER` makes the message of the counter and leaves the key. -/
theorem runCommand_ctrser {s : State} (hs : s.sound) (ho : s.portOpen = true) :
    ∃ t, s.runCommand .ctrser = some t ∧ t.msgLen = 8 ∧ t.msgBytes = toBe s.counter 8 ∧
      t.keyLen = s.keyLen ∧ t.keyBytes = s.keyBytes := by
  have hrun := runCommand_success (i := .ctrser) ho rfl
  obtain ⟨hmessage, hlen⟩ := ctrser_message (s := s.latch (encode .ctrser)) hs (runCommand_cases hrun).2
  refine ⟨_, hrun, hlen, ?_, ?_, ?_⟩
  · rw [State.msgBytes, hlen]
    exact hmessage
  all_goals simp [commandWrites, State.keyBytes]

/-- `RUN HMAC` makes the digest of the key and the message. -/
theorem runCommand_hmac {s : State} (hs : s.sound) (ho : s.portOpen = true)
    (hkey : s.keyLen.toNat ≤ s.cfg.keyCap) (hmsg : s.msgLen.toNat ≤ s.cfg.msgCap) :
    ∃ t, s.runCommand .hmac = some t ∧
      Memory.readBytes t.digest 0 20 = hmacSha1 s.keyBytes s.msgBytes :=
  ⟨_, runCommand_success ho (hmac_success.2 ⟨hkey, hmsg⟩), by
    rw [State.finish_digest, State.latch_digest, hmac_digest hs]⟩

/-- The actions of a token on a core whose key is in place: they lead to a core whose register TRUNC holds
the value of the token, and the digits are that value's (44_host_composition R153). -/
theorem exists_tokenOfLoadedKey {s : State} {counter : Nat} (hs : s.sound) (ho : s.portOpen = true)
    (hkey : s.keyLen.toNat ≤ s.cfg.keyCap) (hcounter : counter < 2 ^ 64) :
    ∃ code u, s.tokenOfLoadedKey counter = some (code, u) ∧
      u.trunc.toNat = tokenValue s.keyBytes counter ∧
      extractDigits (tokenValue s.keyBytes counter) 6 = some code ∧
      u.sound ∧ u.portOpen = true ∧ u.cfg = s.cfg := by
  have hctr := (loadCtr_eq_some_iff (v := BitVec.ofNat 64 counter)).2 ⟨ho, rfl⟩
  have hs₀ : (s.withCounter (BitVec.ofNat 64 counter)).sound := hs
  obtain ⟨t₁, h₁, hmsgLen, hmsg, hkeyLen, hkeyBytes⟩ := runCommand_ctrser hs₀ ho
  have hcfg₁ : t₁.cfg = s.cfg := (runCommand_cfg h₁).trans (withCounter_cfg s _)
  have hs₁ := runCommand_sound hs₀ h₁
  have hfit : t₁.msgLen.toNat ≤ t₁.cfg.msgCap := by
    rw [hmsgLen]
    exact eight_le_msgCap hs₁.1
  obtain ⟨t₂, h₂, hdigest⟩ := runCommand_hmac hs₁ (runCommand_portOpen h₁)
    (by rw [hkeyLen, hcfg₁]; exact hkey) hfit
  obtain ⟨t₃, u, h₃, hu, -, -, -, htrunc⟩ := dynamicTruncation t₂ (runCommand_portOpen h₂)
  have hvalue : u.trunc.toNat = tokenValue s.keyBytes counter := by
    rw [htrunc, ← truncatedValue_readBytes, hdigest, hmsg, hkeyBytes, counter_withCounter,
      BitVec.toNat_ofNat, Nat.mod_eq_of_lt hcounter]
    rfl
  have hdigits := extractDigits_eq (tokenValue_lt s.keyBytes counter) (n := 6) (by omega)
  refine ⟨_, u, ?_, hvalue, hdigits, runCommand_sound (runCommand_sound (runCommand_sound hs₁ h₂) h₃) hu,
    runCommand_portOpen hu, ?_⟩
  · simp [State.tokenOfLoadedKey, hctr, h₁, h₂, h₃, hu, hvalue, hdigits]
  · rw [runCommand_cfg hu, runCommand_cfg h₃, runCommand_cfg h₂, hcfg₁]

/-- The cores that the actions of a token go through. -/
theorem tokenOfLoadedKey_cases {s u : State} {counter : Nat} {code : List Byte}
    (h : s.tokenOfLoadedKey counter = some (code, u)) :
    ∃ t₀ t₁ t₂ t₃, s.loadCtr (BitVec.ofNat 64 counter) = some t₀ ∧ t₀.runCommand .ctrser = some t₁ ∧
      t₁.runCommand .hmac = some t₂ ∧ t₂.runCommand .doff = some t₃ ∧ t₃.runCommand .trunc = some u := by
  simp only [State.tokenOfLoadedKey, Option.bind_eq_bind, Option.bind_eq_some_iff, Option.pure_def,
    Option.some.injEq, Prod.mk.injEq] at h
  obtain ⟨t₀, h₀, t₁, h₁, t₂, h₂, t₃, h₃, _, hu, _, -, -, rfl⟩ := h
  exact ⟨t₀, t₁, t₂, t₃, h₀, h₁, h₂, h₃, hu⟩

/-! ### The token of a secret -/

theorem exists_computeToken {s : State} {secret : List Byte} {T : ℚ} {stepSeconds stepOffset : Int}
    {counter : Nat} (hs : s.sound) (ho : s.portOpen = true) (hfit : secret.length ≤ s.cfg.keyCap)
    (hcounter : buildCounter T stepSeconds stepOffset = some counter) :
    ∃ code u, s.computeToken secret T stepSeconds stepOffset = some (code, u) ∧
      extractDigits (tokenValue secret counter) 6 = some code ∧ u.sound ∧ u.portOpen = true ∧
      u.cfg = s.cfg := by
  obtain ⟨hlen, hkey⟩ := loaded_key hs hfit
  have hload := loadKey_eq_some_iff.2 ⟨ho, hfit, rfl⟩
  obtain ⟨code, u, hu, -, hcode, hrest⟩ := exists_tokenOfLoadedKey
    (loaded_sound (b := .keymem) hs hfit .keyLen) ho (by rw [hlen]; exact hfit) (buildCounter_lt hcounter)
  rw [hkey] at hcode
  exact ⟨code, u, by simp [State.computeToken, hcounter, hload, hu], hcode, hrest⟩

theorem computeToken_of_no_counter {T : ℚ} {stepSeconds stepOffset : Int}
    (h : buildCounter T stepSeconds stepOffset = none) (s : State) (secret : List Byte) :
    s.computeToken secret T stepSeconds stepOffset = none := by
  simp [State.computeToken, h]

/-- The token as a function of the secret and the time alone. -/
def tokenCode (secret : List Byte) (T : ℚ) (stepSeconds stepOffset : Int) : Option (List Byte) :=
  (buildCounter T stepSeconds stepOffset).bind fun counter => extractDigits (tokenValue secret counter) 6

/-- The digits of a token do not depend on the core that computes it. -/
theorem computeToken_code {s : State} {secret : List Byte} (hs : s.sound) (ho : s.portOpen = true)
    (hfit : secret.length ≤ s.cfg.keyCap) (T : ℚ) (stepSeconds stepOffset : Int) :
    (s.computeToken secret T stepSeconds stepOffset).map Prod.fst =
      tokenCode secret T stepSeconds stepOffset := by
  cases hcounter : buildCounter T stepSeconds stepOffset with
  | none => simp [computeToken_of_no_counter hcounter, tokenCode, hcounter]
  | some counter =>
    obtain ⟨code, u, hu, hcode, -⟩ := exists_computeToken hs ho hfit hcounter
    simp [hu, tokenCode, hcounter, hcode]

/-! ### The secret as text -/

theorem decodeSecret_of_run {s t : State} {text : List Byte} (ho : s.portOpen = true)
    (hfit : text.length ≤ s.cfg.txtCap)
    (h : (s.loaded .txtmem .txtLen text).runCommand .b32dec = some t) :
    (t.err = .none → s.decodeSecret text = .ok (t.keyBytes, t)) ∧
      (t.err = .invalidEncoding → s.decodeSecret text = .error .invalidEncoding) ∧
      (t.err = .invalidCharacter → s.decodeSecret text = .error .invalidCharacter) := by
  have hload := loadTxt_eq_some_iff.2 ⟨ho, hfit, rfl⟩
  refine ⟨fun he => ?_, fun he => ?_, fun he => ?_⟩ <;> simp [State.decodeSecret, hload, h, he]

/-- The three outcomes of `decodeSecret` for a text that fits, with what `RUN B32DEC` leaves in ERR
(44_host_composition R157). -/
theorem decodeSecret_cases {s : State} {text : List Byte} (hs : s.sound) (ho : s.portOpen = true)
    (hfit : text.length ≤ s.cfg.txtCap) :
    ∃ t, (s.loaded .txtmem .txtLen text).runCommand .b32dec = some t ∧
      ((text.length % 8 ≠ 0 ∧ t.err = .invalidEncoding ∧
          s.decodeSecret text = .error .invalidEncoding) ∨
        (text.length % 8 = 0 ∧ textValues text = none ∧ t.err = .invalidCharacter ∧
          s.decodeSecret text = .error .invalidCharacter) ∨
        (text.length % 8 = 0 ∧ textValues text ≠ none ∧ t.err = .none ∧
          s.decodeSecret text = .ok (t.keyBytes, t))) := by
  obtain ⟨hlen, htext⟩ := loaded_text hs hfit
  obtain ⟨t, -, ht⟩ := runCommand_of_open (s := s.loaded .txtmem .txtLen text) .b32dec ho
  obtain ⟨hok, hencoding, hcharacter⟩ := decodeSecret_of_run ho hfit ht
  have hcap : ¬(s.loaded .txtmem .txtLen text).cfg.txtCap < text.length := Nat.not_lt.2 hfit
  have herr := runCommand_err ht
  simp only [commandError, hlen, htext, if_neg hcap] at herr
  refine ⟨t, ht, ?_⟩
  split_ifs at herr with hmod hvalues
  · exact .inl ⟨hmod, herr, hencoding herr⟩
  · exact .inr (.inl ⟨not_not.1 hmod, hvalues, herr, hcharacter herr⟩)
  · exact .inr (.inr ⟨not_not.1 hmod, hvalues, herr, hok herr⟩)

/-- A text that is too long is refused. -/
theorem fits_of_decodeSecret_ok {s : State} {text : List Byte} {r : List Byte × State}
    (h : s.decodeSecret text = .ok r) : text.length ≤ s.cfg.txtCap := by
  by_contra hlong
  simp [State.decodeSecret, State.loadTxt, hlong] at h

/-- What is known of the key of a text that decodes. -/
theorem decodeSecret_ok {s v : State} {text key : List Byte} (hs : s.sound) (ho : s.portOpen = true)
    (h : s.decodeSecret text = .ok (key, v)) :
    (s.loaded .txtmem .txtLen text).runCommand .b32dec = some v ∧ v.keyBytes = key ∧
      text.length % 8 = 0 ∧ v.keyLen.toNat = 5 * text.length / 8 ∧
      ∃ vs, textValues text = some vs ∧ key = decodeGroups (text.length / 8) vs := by
  have hfit := fits_of_decodeSecret_ok h
  obtain ⟨hlen, htext⟩ := loaded_text hs hfit
  obtain ⟨t, ht, hcases⟩ := decodeSecret_cases hs ho hfit
  rcases hcases with ⟨-, -, herror⟩ | ⟨-, -, -, herror⟩ | ⟨hmod, -, he, hok⟩
  · simp [herror] at h
  · simp [herror] at h
  · obtain ⟨rfl, rfl⟩ := Prod.mk.inj (Except.ok.inj (hok.symm.trans h))
    obtain ⟨-, -, -, hkeyLen, vs, hvs, hkey⟩ :=
      runCommand_b32dec (loaded_sound (b := .txtmem) hs hfit .txtLen) ht he
    rw [hlen] at hkeyLen hkey
    rw [htext] at hvs
    exact ⟨ht, rfl, hmod, hkeyLen, vs, hvs, hkey⟩

/-- The core that a decode leaves: sound, open, and with a key that fits. -/
theorem decodeSecret_ok_core {s v : State} {text key : List Byte} (hs : s.sound) (ho : s.portOpen = true)
    (h : s.decodeSecret text = .ok (key, v)) :
    v.sound ∧ v.portOpen = true ∧ v.cfg = s.cfg ∧ v.keyLen.toNat ≤ s.cfg.keyCap := by
  have hfit := fits_of_decodeSecret_ok h
  obtain ⟨hrun, -, -, hlen, -⟩ := decodeSecret_ok hs ho h
  have hcap := (caps_of_legal hs.1).1
  exact ⟨runCommand_sound (loaded_sound (b := .txtmem) hs hfit .txtLen) hrun, runCommand_portOpen hrun,
    (runCommand_cfg hrun).trans (loaded_cfg s _ _ text), by omega⟩

/-- What `generate` leaves for 20 drawn bytes: they are the key, and the text is their encoding
(44_host_composition R156). -/
theorem exists_generate {s : State} {bytes : List Byte} (hs : s.sound) (ho : s.portOpen = true)
    (hlen : bytes.length = 20) :
    ∃ t, (s.loaded .keymem .keyLen bytes).runCommand .b32enc = some t ∧
      s.generate (some bytes) = .ok (encodeGroups 4 bytes, t) ∧
      t.txtLen.toNat = 32 ∧ t.txtBytes = encodeGroups 4 bytes ∧ t.keyBytes = bytes ∧
      t.keyLen.toNat = 20 := by
  obtain ⟨-, hcap, -⟩ := sizesLegal_of_legal hs.1
  have hfit : bytes.length ≤ s.cfg.keyCap := by omega
  obtain ⟨hkeyLen, hkey⟩ := loaded_key hs hfit
  have hload := loadKey_eq_some_iff.2 ⟨ho, hfit, rfl⟩
  have hok : commandError .b32enc (s.loaded .keymem .keyLen bytes) = .none :=
    b32enc_success.2 ⟨by rw [hkeyLen]; exact hfit, by rw [hkeyLen, hlen]⟩
  have hrun := runCommand_success (i := .b32enc) (s := s.loaded .keymem .keyLen bytes) ho hok
  obtain ⟨-, -, -, htxtLen, htxt⟩ :=
    runCommand_b32enc (loaded_sound (b := .keymem) hs hfit .keyLen) hrun rfl
  rw [hkeyLen, hlen] at htxtLen htxt
  rw [hkey] at htxt
  refine ⟨_, hrun, ?_, htxtLen, htxt, hkey, hkeyLen.trans hlen⟩
  simp [State.generate, hlen, hload, hrun, htxt]

/-! ### The loop of verify -/

theorem verifyLoop_cons {secret presented code : List Byte} {stepSeconds stepOffset : Int} {T : ℚ}
    {rest : List (Int × ℚ)} {s t : State}
    (h : s.computeToken secret T stepSeconds stepOffset = some (code, t)) :
    State.verifyLoop secret presented stepSeconds ((stepOffset, T) :: rest) s =
      if code = presented then some (true, t) else t.verifyLoop secret presented stepSeconds rest := by
  simp [State.verifyLoop, h]

/-- The loop accepts exactly a code that the token of one of its calls equals. -/
theorem exists_verifyLoop {secret : List Byte} (presented : List Byte) {stepSeconds : Int}
    {calls : List (Int × ℚ)} {s : State} (hs : s.sound) (ho : s.portOpen = true)
    (hfit : secret.length ≤ s.cfg.keyCap)
    (hdef : ∀ c ∈ calls, buildCounter c.2 stepSeconds c.1 ≠ none) :
    ∃ b u, State.verifyLoop secret presented stepSeconds calls s = some (b, u) ∧
      (b = true ↔ ∃ c ∈ calls, tokenCode secret c.2 stepSeconds c.1 = some presented) := by
  induction calls generalizing s with
  | nil => exact ⟨false, s, rfl, by simp⟩
  | cons call calls ih =>
    obtain ⟨stepOffset, T⟩ := call
    obtain ⟨counter, hcounter⟩ := Option.ne_none_iff_exists'.1 (hdef _ List.mem_cons_self)
    obtain ⟨code, t, ht, hcode, hts, hto, htcfg⟩ := exists_computeToken hs ho hfit hcounter
    have htoken : tokenCode secret T stepSeconds stepOffset = some code := by
      simp [tokenCode, hcounter, hcode]
    rw [verifyLoop_cons ht]
    by_cases hmatch : code = presented
    · exact ⟨true, t, if_pos hmatch, by simp [htoken, hmatch]⟩
    · obtain ⟨b, u, hu, hb⟩ := ih hts hto (by rw [htcfg]; exact hfit)
        fun c hc => hdef c (List.mem_cons_of_mem _ hc)
      exact ⟨b, u, (if_neg hmatch).trans hu, by simp [hb, htoken, hmatch]⟩

/-- The calls of `verify`: one for each offset of the window, at its clock reading. -/
theorem zip_windowOffsets {previous future : Nat} {clock : List ℚ}
    (h : clock.length = previous + future + 1) :
    (State.windowOffsets previous future).zip clock =
      (List.range (previous + future + 1)).map fun k : Nat => ((k : Int) - previous, clock.getD k 0) := by
  refine List.ext_getElem (by simp [State.windowOffsets, h]) fun k h₁ h₂ => ?_
  have hk : k < clock.length := by simpa [h] using h₂
  simp [State.windowOffsets, hk]

/-! ### The obligations -/

/-- Settles O52: the key is loaded or decoded, and the token is that of the loaded key. -/
theorem tokenIsTheTruncatedHmac : Obligations.TokenIsTheTruncatedHmac := by
  refine ⟨fun s secret T stepSeconds stepOffset counter hs ho hfit hcounter => ?_,
    fun s text T stepSeconds stepOffset counter hs ho hcounter => ⟨fun e he => ?_, fun key v hv => ?_⟩,
    fun s secret T stepSeconds stepOffset hnone => ?_⟩
  · obtain ⟨code, u, hu, hcode, hsound, hopen, -⟩ := exists_computeToken hs ho hfit hcounter
    exact ⟨u, code, hu, hcode, hsound, hopen⟩
  · simp [State.computeTokenOfText, hcounter, he]
  · obtain ⟨hvs, hvo, hvcfg, hvlen⟩ := decodeSecret_ok_core hs ho hv
    obtain ⟨-, hkey, -⟩ := decodeSecret_ok hs ho hv
    have hfit : key.length ≤ s.cfg.keyCap := by rw [← hkey, length_keyBytes]; exact hvlen
    obtain ⟨code, u, hu, -, hcode, hsound, hopen, -⟩ :=
      exists_tokenOfLoadedKey hvs hvo (by rw [hvcfg]; exact hvlen) (buildCounter_lt hcounter)
    rw [hkey] at hcode
    refine ⟨u, code, by simp [State.computeTokenOfText, hcounter, hv, hu], ?_, hsound, hopen⟩
    rw [computeToken_code hs ho hfit, tokenCode, hcounter, Option.bind_some, hcode]
  · exact ⟨computeToken_of_no_counter hnone s secret, by simp [State.computeTokenOfText, hnone]⟩

/-- Settles O54: the loop of verify goes through the window in order. -/
theorem verifyAcceptsExactlyTheWindow : Obligations.VerifyAcceptsExactlyTheWindow := by
  intro s secret code clock stepSeconds previous future hs ho hfit hclock
  have hcalls := zip_windowOffsets hclock
  refine ⟨fun hdef => ?_, fun ⟨k, hk, hnone⟩ => if_neg ?_⟩
  · obtain ⟨b, u, hu, hb⟩ := exists_verifyLoop code hs ho hfit
      (calls := (State.windowOffsets previous future).zip clock) (stepSeconds := stepSeconds)
      (by simpa [hcalls] using hdef)
    refine ⟨b, u, ?_, ?_⟩
    · exact (if_pos ⟨hclock, by simpa [hcalls, Option.isSome_iff_ne_none] using hdef⟩).trans hu
    · simp only [hb, hcalls, List.mem_map, List.mem_range, computeToken_code hs ho hfit]
      simp
  · rintro ⟨-, hall⟩
    simp only [hcalls, List.all_map, List.all_eq_true, List.mem_range, Function.comp_apply] at hall
    have hsome := hall k hk
    rw [hnone] at hsome
    simp at hsome

/-- Settles O55: the text is the encoding of the bytes, and its characters decode to them in any core. -/
theorem generatedSecretDecodesToItsBytes : Obligations.GeneratedSecretDecodesToItsBytes := by
  intro s bytes hs ho hlen
  obtain ⟨t, -, hgen, -, -, hkey, hkeyLen⟩ := exists_generate hs ho hlen
  rw [State.keyBytes, hkeyLen] at hkey
  refine ⟨_, t, hgen, length_encodeGroups 4 bytes, hkey, fun s' hs' ho' => ?_⟩
  obtain ⟨-, hcap, -⟩ := sizesLegal_of_legal hs'.1
  have hfit : (encodeGroups 4 bytes).length ≤ s'.cfg.txtCap := by
    rw [length_encodeGroups, Config.txtCap]
    omega
  have hvalues := textValues_encodeGroups 4 bytes
  obtain ⟨u, -, hcases⟩ := decodeSecret_cases hs' ho' hfit
  rcases hcases with ⟨hmod, -⟩ | ⟨-, hnone, -⟩ | ⟨-, -, -, hok⟩
  · simp at hmod
  · simp [hvalues] at hnone
  · obtain ⟨-, -, -, -, vs, hvs, hdecoded⟩ := decodeSecret_ok hs' ho' hok
    obtain rfl := Option.some.inj (hvs.symm.trans hvalues)
    rw [length_encodeGroups, Nat.mul_div_cancel_left 4 (by norm_num),
      decodeGroups_keyValues hlen] at hdecoded
    exact ⟨u, by rw [hok, hdecoded]⟩

/-- Settles O56: the two failures are the errors of B32DEC, and a decoded key encodes to its text. -/
theorem decodeSecretReportsTypedFailures : Obligations.DecodeSecretReportsTypedFailures := by
  intro s text hs ho hfit
  obtain ⟨t, -, hcases⟩ := decodeSecret_cases hs ho hfit
  rw [Ne, Ne, textValues_eq_none] at hcases
  refine ⟨fun hmod => ?_, fun hmod hbad => ?_, fun hmod hgood => ?_⟩
  · rcases hcases with ⟨-, -, h⟩ | ⟨h, -⟩ | ⟨h, -⟩
    · exact h
    · exact absurd h hmod
    · exact absurd h hmod
  · rcases hcases with ⟨h, -⟩ | ⟨-, -, -, h⟩ | ⟨-, h, -⟩
    · exact absurd hmod h
    · exact h
    · exact absurd hbad h
  · rcases hcases with ⟨h, -⟩ | ⟨-, ⟨c, hc, hnone⟩, -⟩ | ⟨-, -, -, h⟩
    · exact absurd hmod h
    · exact absurd hnone (hgood c hc)
    · obtain ⟨-, -, -, hkeyLen, vs, hvs, hkey⟩ := decodeSecret_ok hs ho h
      have hlen := length_keyBytes t
      refine ⟨_, t, h, by omega, by rw [hlen]; rfl, hlen.symm, ?_⟩
      rw [hlen, hkeyLen, hkey, show 5 * text.length / 8 / 5 = text.length / 8 by omega,
        encodeGroups_decodeGroups (by rw [length_textValues hvs]; omega), map_b32char_of_textValues hvs]

end Sys2Proof.Machine
end

section
/-! PROOFS. The family of 44_host_composition, step by step through the port: the host's actions for a token
(O53), and those of `generate` and `decodeSecret` (O59). -/

namespace Sys2Proof.Machine

/-! ### Sequences of actions through the port -/

/-- The actions take the core of `s` to the core of `t`, whatever stands in the host's side, and the values
`seen` are the last ones they read: from an open port they are performed in some number of steps, the port
is then open and the remaining actions are next. -/
def performs (as : List HostAction) (s t : State) (seen : List PortValue) : Prop :=
  ∀ (side : HostSide) (rest : List HostAction), ({ s with host := side } : State).portOpen = true →
    side.actions = as ++ rest →
    ∃ (n : Nat) (side' : HostSide) (polls : List PortValue),
      Sys2Proof.core.run n ({ s with host := side } : State) =
        Host.Outcome.next (σ := State) { t with host := side' } ∧
      side'.actions = rest ∧ ({ t with host := side' } : State).portOpen = true ∧
      side'.reads = side.reads ++ polls ++ seen

theorem performs.append {as bs : List HostAction} {s t u : State} {seen seen' : List PortValue}
    (h : performs as s t seen) (h' : performs bs t u seen') : performs (as ++ bs) s u seen' := by
  intro side rest ho ha
  obtain ⟨n, side₁, polls₁, hrun₁, hact₁, hopen₁, hreads₁⟩ := h side (bs ++ rest) ho (by simpa using ha)
  obtain ⟨m, side₂, polls₂, hrun₂, hact₂, hopen₂, hreads₂⟩ := h' side₁ rest hopen₁ hact₁
  refine ⟨n + m, side₂, polls₁ ++ seen ++ polls₂, (coreRun_add m hrun₁).trans hrun₂, hact₂, hopen₂, ?_⟩
  rw [hreads₂, hreads₁]
  simp

theorem performs_load {s : State} {b : Buf} {len : Reg} {bytes : List Byte} {acts : List HostAction}
    (hs : s.sound) (hlen : len = .keyLen ∨ len = .msgLen ∨ len = .txtLen)
    (hload : HostAction.load s.cfg b len bytes = some acts) :
    performs acts s (s.loaded b len bytes) [] := by
  intro side rest ho ha
  obtain ⟨t, hrun, hcore, hact, hreads, hopen⟩ :=
    run_load_steps (s := { s with host := side }) hs ho ha hlen hload
  have hbytes : t = { s.loaded b len bytes with host := t.host } := by
    rw [hcore]
    rcases hlen with rfl | rfl | rfl <;> cases b <;> rfl
  rw [hbytes] at hrun hopen
  exact ⟨_, t.host, [], hrun, hact, hopen, by simp [hreads]⟩

theorem performs_ldCtr {s t : State} {v : BitVec 64} (h : s.loadCtr v = some t) :
    performs (HostAction.ldCtr v) s t [] := by
  obtain ⟨-, rfl⟩ := loadCtr_eq_some_iff.1 h
  intro side rest ho ha
  obtain ⟨t, hrun, hcore, hact, hreads, hopen⟩ := run_ldCtr (s := { s with host := side }) ho ha
  rw [hcore] at hrun hopen
  exact ⟨_, t.host, [], hrun, hact, hopen, by simp [hreads]⟩

/-- `RUN m` ends with the STATUS read that returns BUSY = 0. -/
theorem performs_run {s t : State} {i : Instr} (h : s.runCommand i = some t) :
    performs (HostAction.run i) s t [.word t.status] := by
  intro side rest ho ha
  obtain ⟨t', u, ht', hrun, hcore, hact, hopen, hreads⟩ :=
    runIsOneAtomicAction { s with host := side } i rest ho ha
  obtain rfl := Option.some.inj (ht'.symm.trans (runCommand_host h side (portOpen_iff.1 ho).2))
  rw [hcore] at hrun hopen
  exact ⟨_, u.host, _, hrun, hact, hopen, hreads⟩

theorem performs_rd (s : State) (r : Reg) : performs [HostAction.rd r] s s [.word (s.readReg r)] := by
  intro side rest ho ha
  obtain ⟨t, hstep, hcore, hact, hreads, hopen⟩ :=
    step_read (s := { s with host := side }) (l := .reg r) ho (locate_reg s.cfg r) ha
  have hvalue := readReg_of_hostOnly (s := s) (t := { s with host := side }) rfl r
  rw [hcore] at hstep hopen
  refine ⟨1, t.host, [], run_succ 0 hstep, hact, hopen, ?_⟩
  rw [hreads, State.valueAt, hvalue, List.append_nil]

/-- RDTXT and RDKEY end with the length register and as many bytes of the buffer. -/
theorem performs_readCounted {a : HostAction} {r : Reg} {b : Buf}
    (hr : ∀ s, hostAct a s = readCounted s r b) {s : State} (hcap : (s.readReg r).toNat ≤ b.cap s.cfg) :
    performs [a] s s (.word (s.readReg r) ::
      (Memory.readBytes (s.buffer b) 0 (s.readReg r).toNat).map PortValue.byte) := by
  intro side rest ho ha
  have hvalue := readReg_of_hostOnly (s := s) (t := { s with host := side }) rfl r
  have hbuffer := buffer_of_hostOnly (s := s) (t := { s with host := side }) rfl b
  obtain ⟨t, hrun, hcore, hact, hopen, hreads⟩ :=
    run_readCounted_of_le_cap hr (s := { s with host := side }) ho ha (by rw [hvalue]; exact hcap)
  rw [hcore] at hrun hopen
  refine ⟨_, t.host, [], hrun, hact, hopen, ?_⟩
  rw [hreads, hvalue, hbuffer, List.append_nil]

/-! ### The host's sequences -/

/-- The actions of a token end with the read of the register TRUNC that `tokenOfLoadedKey` leaves
(44_host_composition R153). -/
theorem performs_token {s u : State} {secret code : List Byte} {counter : Nat} {acts : List HostAction}
    (hs : s.sound) (hacts : HostAction.token s.cfg secret counter = some acts)
    (hu : (s.loaded .keymem .keyLen secret).tokenOfLoadedKey counter = some (code, u)) :
    performs acts s u [.word (u.trunc.setWidth 32)] := by
  obtain ⟨load, hload, rfl⟩ := Option.map_eq_some_iff.1 hacts
  obtain ⟨t₀, t₁, t₂, t₃, h₀, h₁, h₂, h₃, h₄⟩ := tokenOfLoadedKey_cases hu
  exact (performs_load hs (.inl rfl) hload).append (performs_ldCtr h₀) |>.append (performs_run h₁)
    |>.append (performs_run h₂) |>.append (performs_run h₃) |>.append (performs_run h₄)
    |>.append (performs_rd u .trunc)

/-- The actions of `decodeSecret` end with the STATUS read of `RUN B32DEC` (44_host_composition R157). -/
theorem performs_decode {s t : State} {text : List Byte} {acts : List HostAction} (hs : s.sound)
    (hacts : HostAction.decode s.cfg text = some acts)
    (ht : (s.loaded .txtmem .txtLen text).runCommand .b32dec = some t) :
    performs acts s t [.word t.status] := by
  obtain ⟨load, hload, rfl⟩ := Option.map_eq_some_iff.1 hacts
  exact (performs_load hs (.inr (.inr rfl)) hload).append (performs_run ht)

theorem length_le_txtCap_of_decode {c : Config} {text : List Byte} {acts : List HostAction}
    (h : HostAction.decode c text = some acts) : text.length ≤ c.txtCap := by
  obtain ⟨load, hload, -⟩ := Option.map_eq_some_iff.1 h
  exact (load_eq_some hload).1

/-- An error of `RUN m` changes CMD, BUSY and ERR alone (60_exceptions R183). -/
theorem eq_of_runCommand_error {s t : State} {i : Instr} (h : s.runCommand i = some t)
    (he : t.err ≠ .none) : t = (s.latch (encode i)).raise t.err := by
  obtain ⟨-, hx⟩ := runCommand_cases h
  rcases exec_cases i (s.latch (encode i)) with ⟨hok, -⟩ | ⟨-, hraise⟩
  · exact absurd ((exec_err hx).trans hok) he
  · rw [exec_err hx]
    exact Host.Outcome.next.inj (hx.symm.trans hraise)

/-- The actions of `generate` end with the reads of the text (44_host_composition R156). -/
theorem performs_generate {s t : State} {bytes text : List Byte} {acts : List HostAction} (hs : s.sound)
    (ho : s.portOpen = true) (hacts : HostAction.generate s.cfg bytes = some acts)
    (hgen : s.generate (some bytes) = .ok (text, t)) :
    performs acts s t (.word t.txtLen :: text.map PortValue.byte) := by
  obtain ⟨load, hload, rfl⟩ := Option.map_eq_some_iff.1 hacts
  have hlen : bytes.length = 20 := by
    by_contra hne
    simp [State.generate, hne] at hgen
  obtain ⟨t', hrun, hgen', htxtLen, htxt, -⟩ := exists_generate hs ho hlen
  obtain ⟨rfl, rfl⟩ := Prod.mk.inj (Except.ok.inj (hgen'.symm.trans hgen))
  have hcfg : t'.cfg = s.cfg := (runCommand_cfg hrun).trans (loaded_cfg s _ _ bytes)
  have hcap : t'.txtLen.toNat ≤ t'.cfg.txtCap := by
    obtain ⟨-, hkeyCap, -⟩ := sizesLegal_of_legal hs.1
    rw [hcfg, htxtLen, Config.txtCap]
    omega
  rw [← htxt]
  exact (performs_load hs (.inl rfl) hload).append (performs_run hrun) |>.append
    (performs_readCounted (a := .rdTxt) (r := .txtLen) (b := .txtmem) (fun _ => rfl) hcap)

/-- The actions of `decodeSecret` for a text that decodes end with the reads of the key
(44_host_composition R157). -/
theorem performs_decode_rdKey {s t : State} {text key : List Byte} {acts : List HostAction} (hs : s.sound)
    (ho : s.portOpen = true) (hacts : HostAction.decode s.cfg text = some acts)
    (hdec : s.decodeSecret text = .ok (key, t)) :
    performs (acts ++ [.rdKey]) s t (.word t.keyLen :: key.map PortValue.byte) := by
  obtain ⟨hrun, rfl, -⟩ := decodeSecret_ok hs ho hdec
  obtain ⟨-, -, hcfg, hlen⟩ := decodeSecret_ok_core hs ho hdec
  exact (performs_decode hs hacts hrun).append (performs_readCounted (a := .rdKey) (r := .keyLen)
    (b := .keymem) (fun _ => rfl) (by rw [hcfg]; exact hlen))

/-- A text that does not decode: what `RUN B32DEC` leaves in ERR is the failure, and the key is the one of
before (70_reset_and_hazards R205). -/
theorem decodeSecret_error {s : State} {text : List Byte} {e : HostError} (hs : s.sound)
    (ho : s.portOpen = true) (hfit : text.length ≤ s.cfg.txtCap) (h : s.decodeSecret text = .error e) :
    ∃ t, (s.loaded .txtmem .txtLen text).runCommand .b32dec = some t ∧
      ((t.err = .invalidEncoding ∧ e = .invalidEncoding) ∨
        (t.err = .invalidCharacter ∧ e = .invalidCharacter)) ∧
      t.keymem = s.keymem ∧ t.keyLen = s.keyLen := by
  obtain ⟨t, ht, hcases⟩ := decodeSecret_cases hs ho hfit
  have hfail : (t.err = .invalidEncoding ∧ e = .invalidEncoding) ∨
      (t.err = .invalidCharacter ∧ e = .invalidCharacter) := by
    rcases hcases with ⟨-, herr, hresult⟩ | ⟨-, -, herr, hresult⟩ | ⟨-, -, -, hresult⟩
    · exact .inl ⟨herr, (Except.error.inj (hresult.symm.trans h)).symm⟩
    · exact .inr ⟨herr, (Except.error.inj (hresult.symm.trans h)).symm⟩
    · simp [hresult] at h
  have hne : t.err ≠ .none := by
    rcases hfail with ⟨herr, -⟩ | ⟨herr, -⟩ <;> simp [herr]
  have hframe := eq_of_runCommand_error ht hne
  exact ⟨t, ht, hfail, by rw [hframe]; rfl, by rw [hframe]; rfl⟩

/-- STATUS of any core shows ERR in its error field (10_state R12). -/
theorem errField_status (s : State) : errField s.status = s.err.code := by
  obtain ⟨-, herr, -⟩ := status_fields s
  exact herr

/-! ### The obligations -/

/-- Settles O53: the actions go through the cores of `tokenOfLoadedKey`. -/
theorem tokenActionsReadTheTruncatedValue : Obligations.TokenActionsReadTheTruncatedValue := by
  intro s secret counter acts rest hs ho hcounter hacts ha
  obtain ⟨load, hload, -⟩ := Option.map_eq_some_iff.1 hacts
  have hfit : secret.length ≤ s.cfg.keyCap := (load_eq_some hload).1
  obtain ⟨hlen, hkey⟩ := loaded_key hs hfit
  obtain ⟨code, t, ht, htrunc, -⟩ := exists_tokenOfLoadedKey
    (loaded_sound (b := .keymem) hs hfit .keyLen) ho (by rw [hlen]; exact hfit) hcounter
  obtain ⟨n, side, polls, hrun, hact, hopen, hreads⟩ := performs_token hs hacts ht s.host rest ho ha
  refine ⟨n, _, t.trunc.setWidth 32, hrun, hact, hopen, by simp [hreads], ?_⟩
  rw [BitVec.toNat_setWidth_of_le (by decide), htrunc, hkey]
  rfl

/-- Settles O59: the actions go through the cores of the two functions. -/
theorem secretActionsReadWhatTheFunctionsReturn : Obligations.SecretActionsReadWhatTheFunctionsReturn := by
  refine fun s acts rest hs ho => ⟨fun bytes text t hacts ha hgen => ?_,
    fun text key t hacts ha hdec => ?_, fun text e hacts ha hdec => ?_⟩
  · obtain ⟨n, side, polls, hrun, hact, hopen, hreads⟩ :=
      performs_generate hs ho hacts hgen s.host rest ho ha
    exact ⟨n, _, polls, hrun, rfl, hact, hopen, hreads⟩
  · obtain ⟨n, side, polls, hrun, hact, hopen, hreads⟩ :=
      performs_decode_rdKey hs ho hacts hdec s.host rest ho (by simpa using ha)
    exact ⟨n, _, polls, hrun, rfl, hact, hopen, hreads⟩
  · obtain ⟨t, ht, hfail, hkeymem, hkeyLen⟩ :=
      decodeSecret_error hs ho (length_le_txtCap_of_decode hacts) hdec
    obtain ⟨n, side, polls, hrun, hact, hopen, hreads⟩ := performs_decode hs hacts ht s.host rest ho ha
    refine ⟨n, _, t.status, hrun, hact, hopen, by simp [hreads], ?_, hkeymem, hkeyLen⟩
    rw [errField_status]
    rcases hfail with ⟨herr, he⟩ | ⟨herr, he⟩
    · exact .inl ⟨by rw [herr]; rfl, he⟩
    · exact .inr ⟨by rw [herr]; rfl, he⟩

end Sys2Proof.Machine
end

section
/-! PROOFS. The family of 45_common_semantics: a second RUN of a command with nothing between leaves what the
first left (O18). No command writes an operand of its own, and bytes stored again are the same bytes. -/

namespace Sys2Proof.Machine

/-! ### A command after its own writes -/

/-- No command writes an operand of its own (10_state R25). -/
theorem readsAgree_commandWrites (i : Instr) (s : State) : readsAgree i s (commandWrites i s) := by
  cases i with
  | ctrser => exact ⟨rfl, rfl⟩
  | hmac => simp [readsAgree, agreeBytes, State.byteAt, commandWrites]
  | doff => rfl
  | trunc => exact ⟨rfl, fun _ _ => rfl⟩
  | b32dec => exact ⟨rfl, fun _ _ => rfl⟩
  | b32enc => exact ⟨rfl, fun _ _ => rfl⟩

theorem commandError_commandWrites (i : Instr) (s : State) :
    commandError i (commandWrites i s) = commandError i s :=
  (commandError_of_agree (commandWrites_cfg i s).symm (readsAgree_commandWrites i s)).symm

/-- The second run of a command has the operands of the first, so it writes the same register value and
stores the same bytes over those the first has left. -/
theorem commandWrites_commandWrites {i : Instr} {s : State} (hs : s.sound) (he : commandError i s = .none) :
    commandWrites i (commandWrites i s) = commandWrites i s := by
  obtain ⟨hc, hdig, hkey, hmsg, htxt⟩ := hs
  obtain ⟨hcap, -, -⟩ := caps_of_legal hc
  cases i with
  | ctrser =>
    simp only [commandWrites, State.counter]
    rw [Memory.writeBytes_writeBytes hmsg (by rw [length_toBe]; exact eight_le_msgCap hc)]
  | hmac =>
    simp only [commandWrites, State.keyBytes, State.msgBytes]
    rw [Memory.writeBytes_writeBytes hdig (by rw [length_hmacSha1])]
  | doff => rfl
  | trunc => rfl
  | b32dec =>
    obtain ⟨hl, -⟩ := b32dec_success.1 he
    simp only [commandWrites, State.txtBytes]
    rw [Memory.writeBytes_writeBytes hkey (by rw [length_decodeGroups]; omega)]
  | b32enc =>
    obtain ⟨hl, -⟩ := b32enc_success.1 he
    simp only [commandWrites, State.keyBytes]
    rw [Memory.writeBytes_writeBytes htxt (by rw [length_encodeGroups]; omega)]

/-! ### RUN of a command that fails -/

/-- `RUN m` of a command that fails: the word in CMD and the error, and nothing else (60_exceptions R183). -/
theorem runCommand_error {s : State} {i : Instr} {e : ErrCode} (ho : s.portOpen = true)
    (he : commandError i s = e) (hne : e ≠ .none) :
    s.runCommand i = some ((s.latch (encode i)).raise e) := by
  obtain ⟨t, ht, hr⟩ := runCommand_of_open i ho
  rw [exec_of_error ((commandError_latch i s _).trans he) hne] at ht
  rw [hr, Host.Outcome.next.inj ht]

/-! ### The obligation -/

/-- Settles O18. A first run that succeeds leaves its operands and is repeated byte for byte; one that fails
leaves all but CMD and STATUS, so the second fails in the same way. -/
theorem commandsAreIdempotent : Obligations.CommandsAreIdempotent := by
  intro i s t hs h
  have ho : s.portOpen = true := (runCommand_cases h).1
  have ho' : t.portOpen = true := runCommand_portOpen h
  by_cases he : commandError i s = .none
  · obtain rfl := Option.some.inj (h.symm.trans (runCommand_success ho he))
    have he' : commandError i (((commandWrites i s).latch (encode i)).finish .none) = .none := by
      rw [commandError_finish, commandError_latch, commandError_commandWrites, he]
    rw [runCommand_success ho' he', commandWrites_finish, commandWrites_latch,
      commandWrites_commandWrites hs he]
    rfl
  · obtain rfl := Option.some.inj (h.symm.trans (runCommand_error ho rfl he))
    have he' : commandError i ((s.latch (encode i)).raise (commandError i s)) = commandError i s := by
      rw [State.raise, commandError_finish, commandError_latch]
    rw [runCommand_error ho' he' he]
    rfl

end Sys2Proof.Machine
end

section
/-! PROOFS. The family of 60_exceptions: the completion of an illegal word (O6), an error completion writes
STATUS and nothing else (O14), and each error is reported exactly under the conditions of its rule (O15). -/

namespace Sys2Proof.Machine

/-! ### The words that are no command -/

/-- The words of R182: every number but 1 to 6. -/
theorem forall_ne_encode_iff (w : Word) : (∀ i, w ≠ encode i) ↔ w.toNat = 0 ∨ 6 < w.toNat := by
  rw [← not_exists, exists_eq_encode_iff]
  omega

theorem complete_of_illegal {s : State} (h : ∀ i, s.cmd ≠ encode i) :
    complete s = .next (s.raise .illegalCommand) := by
  obtain ⟨t, ht⟩ := complete_next s
  obtain ⟨i, hi, -⟩ | ⟨-, rfl⟩ := complete_cases ht
  · exact absurd hi (h i)
  · exact ht

/-! ### A completion that reports an error -/

/-- An error of a command is raised, and nothing else is written (60_exceptions R183). -/
theorem eq_raise_of_exec_error {i : Instr} {s t : State} (h : exec i s = .next t) (he : t.err ≠ .none) :
    t = s.raise t.err := by
  have hraise := exec_of_error (exec_err h).symm he
  exact Host.Outcome.next.inj (h.symm.trans hraise)

theorem eq_raise_of_complete_error {s t : State} (h : complete s = .next t) (he : t.err ≠ .none) :
    t = s.raise t.err := by
  obtain ⟨i, -, hx⟩ | ⟨-, rfl⟩ := complete_cases h
  · exact eq_raise_of_exec_error hx he
  · rfl

/-! ### When a command reports which error -/

theorem commandError_eq_badOperand_iff (i : Instr) (s : State) :
    commandError i s = .badOperand ↔
      (i = .hmac ∧ (s.cfg.keyCap < s.keyLen.toNat ∨ s.cfg.msgCap < s.msgLen.toNat)) ∨
      (i = .b32dec ∧ s.cfg.txtCap < s.txtLen.toNat) ∨
      (i = .b32enc ∧ (s.cfg.keyCap < s.keyLen.toNat ∨ s.keyLen.toNat % 5 ≠ 0)) := by
  cases i with
  | ctrser | doff | trunc => simp [commandError]
  | hmac | b32dec | b32enc =>
    simp only [commandError]
    split_ifs with h <;> simp [h]

/-- The encoding is judged after the capacity (40_base32 R82). -/
theorem commandError_eq_invalidEncoding_iff (i : Instr) (s : State) :
    commandError i s = .invalidEncoding ↔
      i = .b32dec ∧ s.txtLen.toNat ≤ s.cfg.txtCap ∧ s.txtLen.toNat % 8 ≠ 0 := by
  rw [← Nat.not_lt]
  cases i with
  | ctrser | doff | trunc => simp [commandError]
  | hmac | b32enc =>
    simp only [commandError]
    split_ifs <;> simp
  | b32dec =>
    simp only [commandError]
    split_ifs with hcap h₈ <;> simp [*]

/-- The characters are judged after the capacity and the encoding (40_base32 R82). -/
theorem commandError_eq_invalidCharacter_iff (i : Instr) (s : State) :
    commandError i s = .invalidCharacter ↔
      i = .b32dec ∧ s.txtLen.toNat ≤ s.cfg.txtCap ∧ s.txtLen.toNat % 8 = 0 ∧
        ∃ k < s.txtLen.toNat, b32val (Memory.read s.txtmem k) = none := by
  rw [← Nat.not_lt, ← textValues_txtBytes_eq_none]
  cases i with
  | ctrser | doff | trunc => simp [commandError]
  | hmac | b32enc =>
    simp only [commandError]
    split_ifs <;> simp
  | b32dec =>
    simp only [commandError]
    split_ifs with hcap h₈ hbad <;> simp_all

/-- IllegalCommand is the error of a word that is no command (60_exceptions R182). -/
theorem commandError_ne_illegalCommand (i : Instr) (s : State) : commandError i s ≠ .illegalCommand := by
  cases i with
  | ctrser | doff | trunc => simp [commandError]
  | hmac | b32dec | b32enc =>
    simp only [commandError]
    split_ifs <;> simp

theorem complete_err_eq_illegalCommand_iff {s t : State} (h : complete s = .next t) :
    t.err = .illegalCommand ↔ ∀ i, s.cmd ≠ encode i := by
  obtain ⟨i, hi, hx⟩ | ⟨hno, rfl⟩ := complete_cases h
  · rw [exec_err hx]
    exact iff_of_false (commandError_ne_illegalCommand i s) fun hno => hno i hi
  · exact iff_of_true rfl hno

/-! ### The obligations -/

/-- Settles O6. No row of the decoder is such a word's, and a completion that is due is the step. -/
theorem illegalWordCompletesWithIllegalCommand : Obligations.IllegalWordCompletesWithIllegalCommand := by
  intro s hword
  have hc := complete_of_illegal ((forall_ne_encode_iff s.cmd).2 hword)
  exact ⟨hc, fun hb hd => (step_of_coreMoves (coreMoves_of_due hb hd)).trans hc⟩

/-- Settles O14. `raise` is the whole of an error completion. -/
theorem errorsWriteNothingButStatus : Obligations.ErrorsWriteNothingButStatus :=
  ⟨fun _ _ _ h he => eq_raise_of_exec_error h he, fun _ _ h he => eq_raise_of_complete_error h he⟩

/-- Settles O15. ERR after a command is `commandError`, whose checks stand in the order of the rules. -/
theorem errorsAreRaisedExactlyWhenTheRulesSay : Obligations.ErrorsAreRaisedExactlyWhenTheRulesSay := by
  constructor
  · intro i s t h
    rw [exec_err h]
    exact ⟨commandError_eq_badOperand_iff i s, commandError_eq_invalidEncoding_iff i s,
      commandError_eq_invalidCharacter_iff i s, commandError_ne_illegalCommand i s⟩
  · intro s t h
    exact (complete_err_eq_illegalCommand_iff h).trans (forall_ne_encode_iff s.cmd)

end Sys2Proof.Machine
end

section
/-! PROOFS. The family of 70_reset_and_hazards: what the port refuses in the busy window and what goes on in
it (O21), and what a reset leaves (O29). -/

namespace Sys2Proof.Machine

/-! ### The accesses that a closed port refuses -/

theorem portRead_of_closed {s : State} {l : Loc} (hl : l ≠ .reg .status) (ho : s.portOpen = false) :
    portRead s l = .refused .accessInBusyWindow := by
  simp [portRead, hl, ho]

theorem portWrite_of_closed {s : State} (ho : s.portOpen = false) (l : Loc) (v : Word) :
    portWrite s l v = .refused .accessInBusyWindow := by
  simp [portWrite, ho]

theorem readCounted_of_closed {s : State} (ho : s.portOpen = false) (r : Reg) (b : Buf) :
    readCounted s r b = .refused .accessInBusyWindow := by
  simp [readCounted, ho]

theorem readNextByte_of_closed {s : State} {b : Buf} {k : Nat} (hk : k < b.cap s.cfg)
    (ho : s.portOpen = false) (more : Nat) : readNextByte s b k more = .refused .accessInBusyWindow := by
  simp [readNextByte, hk, ho]

/-- An access of the shape of 20_memory R41 is its location's. -/
theorem atLocation_of_wellShaped {s : State} {addr n : Nat}
    (h : (locate s.cfg addr).any (·.width == n) = true) (act : Loc → Host.Outcome State Fault Refusal) :
    ∃ l, locate s.cfg addr = some l ∧ atLocation s addr n act = act l := by
  obtain ⟨l, hl, hn⟩ := (Option.any_eq_true _ _).1 h
  exact ⟨l, hl, by simp [atLocation, hl, beq_iff_eq.1 hn]⟩

/-- A closed port refuses every well-shaped action that touches it, but a read of STATUS
(70_reset_and_hazards R204). -/
theorem hostAct_of_closed {a : HostAction} {s : State} (ho : s.portOpen = false)
    (hw : a.wellShaped s.cfg = true) (hp : s.permits a = false) :
    hostAct a s = .refused .accessInBusyWindow := by
  cases a with
  | memRead addr n =>
    obtain ⟨l, hl, hact⟩ := atLocation_of_wellShaped hw (portRead s)
    have hns : l ≠ .reg .status := by
      rintro rfl
      simp [State.permits, hw, hl] at hp
    exact hact.trans (portRead_of_closed hns ho)
  | memWrite addr n v =>
    obtain ⟨l, -, hact⟩ := atLocation_of_wellShaped hw (portWrite s · v)
    exact hact.trans (portWrite_of_closed ho l v)
  | reset | wait => simp [State.permits] at hp
  | rdTxt => exact readCounted_of_closed ho .txtLen .txtmem
  | rdKey => exact readCounted_of_closed ho .keyLen .keymem
  | readBytes b k more => exact readNextByte_of_closed (by simpa [HostAction.wellShaped] using hw) ho more

/-! ### What a closed port permits -/

/-- STATUS is at the one offset 0x004 (20_memory R47). -/
theorem locate_eq_status_iff {c : Config} {addr : Nat} :
    locate c addr = some (.reg .status) ↔ addr = 0x004 :=
  ⟨fun h => (of_locate h).2.symm, fun h => h ▸ locate_reg c .status⟩

theorem permits_memRead_of_closed {s : State} {addr : Nat} (ho : s.portOpen = false) (ha : addr ≠ 0x004)
    (n : Nat) : s.permits (.memRead addr n) = false := by
  simp [State.permits, ho, locate_eq_status_iff, ha]

theorem permits_memWrite_of_closed {s : State} (ho : s.portOpen = false) (addr n : Nat) (v : Word) :
    s.permits (.memWrite addr n v) = false := by
  simp [State.permits, ho]

theorem permits_byteReads_of_closed {s : State} {a : HostAction} (ho : s.portOpen = false)
    (ha : a = .rdTxt ∨ a = .rdKey ∨ ∃ b k more, a = .readBytes b k more) : s.permits a = false := by
  obtain rfl | rfl | ⟨b, k, more, rfl⟩ := ha <;> simp [State.permits, ho]

theorem permits_readStatus (s : State) : s.permits (.memRead 0x004 4) = true :=
  hostAct_next_iff.1 ⟨_, hostAct_readStatus s⟩

/-! ### The obligations -/

/-- Settles O21. The port is closed there; what it then permits is a read of STATUS, a WAIT and a reset, and
it refuses everything else that is well shaped. -/
theorem busyWindowRefusesAllButStatusReads : Obligations.BusyWindowRefusesAllButStatusReads := by
  intro s a rest hwin hm ha hw
  have ho : s.portOpen = false := by
    rw [Bool.eq_false_iff, ne_eq, portOpen_iff]
    rintro ⟨hb, hc⟩
    simp [hb, hc] at hwin
  have refuses (hp : s.permits a = false) : step s = .refused .accessInBusyWindow :=
    (step_of_actions hm ha).trans (hostAct_of_closed (s := s.popAction rest) ho hw hp)
  have answers (hp : s.permits a = true) : ∃ t, step s = .next t := by
    rw [step_of_actions hm ha]
    exact hostAct_next_iff.2 hp
  refine ⟨fun addr n hr haddr => refuses ?_, fun addr n v hr => refuses ?_, fun hr => refuses ?_,
    fun hr => answers ?_⟩
  · exact hr ▸ permits_memRead_of_closed ho haddr n
  · exact hr ▸ permits_memWrite_of_closed ho addr n v
  · exact permits_byteReads_of_closed ho hr
  · obtain rfl | rfl | rfl := hr
    · exact permits_readStatus s
    · rfl
    · rfl

/-- Settles O29. A reset leaves the cleared core under the same parameters, and of the host's side it
changes the window and the delay alone. -/
theorem resetClearsEveryBit : Obligations.ResetClearsEveryBit := fun _ _ hm ha =>
  ⟨_, step_of_actions hm ha, rfl, rfl, readReg_cleared _ _, byteAt_cleared _ _, rfl, rfl, rfl, rfl⟩

end Sys2Proof.Machine
end
